-- ==== Sys2Proof/Word.lean ====
section
/-! DEFINITION. The word and byte types of the OtpEngine core (spec/00_scope.md R6, R7). -/

namespace Sys2Proof

/-- A "word" is 32 bits (R6). -/
abbrev Word := BitVec 32

/-- A byte is 8 bits (R7). -/
abbrev Byte := BitVec 8

end Sys2Proof
end

