-- ==== Sys2Proof/Config.lean ====
section
/-! DEFINITION. The parameters of the block (spec/00_scope.md R5) and its one free value (spec/93_implementation_defined.md U2).
LATENCY, the parameter R5 leaves open, is no number here: it is the order of turns in `State.schedule` (log 1). -/

namespace Sys2Proof.Config

/-- `SECRET_MAX`, the bytes of secret text the block holds (R5). -/
abbrev secretMax : Nat := 128

/-- `KEY_MAX` = floor(5 * 128 / 8), the bytes of decoded key (R5). -/
abbrev keyMax : Nat := 80

/-- `GEN_PERIOD`, the period GENERATE uses, in seconds (R5). -/
abbrev genPeriod : Nat := 30

/-- `MODULUS` = 10^6 (R5). -/
abbrev modulus : Nat := 1000000

/-- The block size of SHA-1 in bytes (R5). -/
abbrev blockSize : Nat := 64

/-- The counter must be below 2^`COUNTER_BITS` (R5). -/
abbrev counterLimit : Nat := 2 ^ 32

/-- `WINDOW`, the size of the register window in bytes (R5). -/
abbrev window : Nat := 512

/-- FREE VALUE (log 2). The word the `n`-th read made while BUSY = 1 returns: "any 32-bit value, not necessarily the old
or the new contents, and not necessarily the same on two reads" (spec/20_memory.md R49, U2). It has no body. -/
opaque busyReadWord : Nat → Word

end Sys2Proof.Config
end

