-- ==== Sys2Proof/Syntax.lean ====
section
/-! DEFINITION. The instructions of the block: its seven commands, one constructor per row of spec/opcode_table.json
(spec/30_encoding.md R62). Operands are implicit (R61), so no constructor has an argument. -/

namespace Sys2Proof

/-- A command (R62). -/
inductive Instr where
  /-- DECODE, word 0x00000001: decodeSecret (R85). -/
  | decode
  /-- COUNTER, word 0x00000002: counterBytes (R103). -/
  | counter
  /-- HMAC, word 0x00000003: generate step 3 (R130). -/
  | hmac
  /-- TRUNC, word 0x00000004: generate steps 4 to 7 (R154). -/
  | trunc
  /-- GENERATE, word 0x00000005: generate (R165). -/
  | generate
  /-- REMAIN, word 0x00000006: getRemainingTime (R106). -/
  | remain
  /-- WIPE, word 0x00000007: housekeeping (R180). -/
  | wipe
  deriving DecidableEq, Repr

end Sys2Proof
end

