-- ==== Sys2Proof/WellFormed.lean ====
section
/-! DEFINITION. What the spec asks of an instruction, of a command word and of a host access before it means anything.
The machine's own tables (Decode.lean, Machine/Operands.lean) are written apart from these checks; Laws and
statements compare the two. -/

namespace Sys2Proof

/-- A command has no operand ("no register number, no immediate, no mode or qualifier bit", spec/30_encoding.md R60, R61),
so none can be out of range: every term of `Instr` is well formed. -/
def Instr.wellFormed : Instr → Bool
  | .decode => true
  | .counter => true
  | .hmac => true
  | .trunc => true
  | .generate => true
  | .remain => true
  | .wipe => true

/-- Bits 31:8 of a command word, the field `zero`, are 0x000000 (R60). -/
def zeroFieldOk (w : Word) : Bool := decide (w.toNat < 256)

/-- Bits 7:0 of a command word are one of the opcodes 0x01 to 0x07 (R62, R65). -/
def opcodeOk (w : Word) : Bool := decide (1 ≤ w.toNat % 256) && decide (w.toNat % 256 ≤ 7)

/-- The word is one of the seven of R62; "every 32-bit word other than the seven of rule R62 is illegal" (R65). -/
def commandWordOk (w : Word) : Bool := zeroFieldOk w && opcodeOk w

/-- The offset is a multiple of 4 (spec/20_memory.md R48). -/
def alignedOk (off : Nat) : Bool := decide (off % 4 = 0)

/-- The access is 32 bits wide, that is 4 bytes (R48). -/
def widthOk (bytes : Nat) : Bool := decide (bytes = 4)

/-- The offset is in 0x000 to 0x1FF (R48). -/
def insideOk (off : Nat) : Bool := decide (off < Config.window)

/-- The offset is in none of the undefined ranges of the table of R42: 0x038 and 0x03C, 0x054 to 0x07C, 0x0D0 to 0x0FC,
0x180 to 0x1FC. -/
def definedOk (off : Nat) : Bool :=
  !(decide (0x038 ≤ off ∧ off < 0x040) || decide (0x054 ≤ off ∧ off < 0x080) || decide (0x0D0 ≤ off ∧ off < 0x100)
    || decide (0x180 ≤ off ∧ off < 0x200))

/-- None of the conditions of R48 under which a transaction answers `error` holds. -/
def accessOk (off bytes : Nat) : Bool := alignedOk off && widthOk bytes && insideOk off && definedOk off

end Sys2Proof
end

