-- ==== Sys2Proof/Decode.lean ====
section
/-! DEFINITION. Decoding a command word and encoding a command (spec/30_encoding.md R60, R62, R65). Decoding is total on
the 2^32 words; a word that is no command is rejected by name. -/

namespace Sys2Proof

/-- Why a word is no command (R65). Both lead to the same fault, BAD_CMD; the two names are the model's (log 15). -/
inductive DecodeError where
  /-- A bit of 31:8 is set (R60). -/
  | zeroFieldSet
  /-- Bits 31:8 are zero and bits 7:0 are 0x00 or 0x08 to 0xFF (R65). -/
  | opcodeUnassigned
  deriving DecidableEq, Repr

/-- Bits 31:8 of a command word (R60). -/
def zeroField (w : Word) : BitVec 24 := w.extractLsb' 8 24

/-- Bits 7:0 of a command word (R60). -/
def opcodeField (w : Word) : BitVec 8 := w.extractLsb' 0 8

/-- The opcode map of R62. -/
def commandOfOpcode (op : BitVec 8) : Option Instr :=
  match op.toNat with
  | 1 => some .decode
  | 2 => some .counter
  | 3 => some .hmac
  | 4 => some .trunc
  | 5 => some .generate
  | 6 => some .remain
  | 7 => some .wipe
  | _ => none

/-- The command a word selects (R62: all 32 bits compared), or why it selects none (R65). -/
def decode (w : Word) : Except DecodeError Instr :=
  if zeroField w = 0 then
    match commandOfOpcode (opcodeField w) with
    | some i => .ok i
    | none => .error .opcodeUnassigned
  else .error .zeroFieldSet

/-- The column "opcode" of R62. -/
def Instr.opcode : Instr → BitVec 8
  | .decode => 0x01
  | .counter => 0x02
  | .hmac => 0x03
  | .trunc => 0x04
  | .generate => 0x05
  | .remain => 0x06
  | .wipe => 0x07

/-- The command word of a command: `zero` in bits 31:8, the opcode in bits 7:0 (R60, R62). -/
def encode (i : Instr) : Word := (0 : BitVec 24) ++ i.opcode

/-- The low `nbits` bits of a table row's word as the value written to CMD: a command is ONE 32-bit word (R60), so the
number of spec/opcode_table.json is that value. -/
def tableWord (nbits w : Nat) : Word := BitVec.ofNat 32 (w % 2 ^ nbits)

/-- The instruction the decoder reads from a table row's word; a number that needs more than 32 bits is no command word. -/
def decodeTableWord (nbits w : Nat) : Option Instr :=
  if w % 2 ^ nbits < 2 ^ 32 then
    match decode (tableWord nbits w) with
    | .ok i => some i
    | .error _ => none
  else none

end Sys2Proof
end

