-- ==== Sys2Proof/Machine/State.lean ====
section
/-! DEFINITION. The state of the OtpEngine core as plain data (spec/10_state.md), the state after reset, and the reasons a
step could stop. Rules R10 to R30 are those of spec/10_state.md. -/

namespace Sys2Proof.Machine

/-- The fault codes 1 to 4 (spec/60_exceptions.md R190). They are faults of the HARDWARE: taking one is a next state. -/
inductive FaultCode where
  /-- Code 1: CUR_CMD is not one of the seven command words. -/
  | badCmd
  /-- Code 2: SECRET_LEN > 128. -/
  | lenRange
  /-- Code 3: PERIOD = 0. -/
  | periodZero
  /-- Code 4: the counter does not fit 32 bits. -/
  | counterRange
  deriving DecidableEq, Repr

/-- The STATUS register (R13). Its reserved bits read 0 and are never set, so they are not stored. -/
structure Status where
  /-- Bit 0: a command has been accepted and has not completed. -/
  busy : Bool
  /-- Bit 1: the last accepted command completed without a fault. -/
  done : Bool
  /-- Bit 2: a command ended in a fault and the fault has not been cleared. -/
  fault : Bool
  /-- Bits 7:4: the fault code, 0 when FAULT = 0. -/
  fcode : BitVec 4
  deriving DecidableEq, Repr

/-- The working storage of the units (R28), which is not architectural and which nothing reads: whether it is still
cleared as reset and WIPE leave it. Its contents otherwise are U13 "any value" and are not held (log 4). -/
inductive Scratch where
  /-- As reset and WIPE leave it (R28, R30). -/
  | cleared
  /-- It may hold anything: some command other than WIPE has completed since. -/
  | arbitrary
  deriving DecidableEq, Repr

/-- A register of the window, one constructor per name of R67 and of the table of spec/20_memory.md R42. -/
inductive Reg where
  | cmd | status | timeMsLo | timeMsHi | period | secretLen | keyLen | remaining
  | msg (j : Fin 2) | binary | code | codeStr (j : Fin 2)
  | digest (j : Fin 5) | key (j : Fin 20) | secret (j : Fin 32)
  deriving DecidableEq, Repr

/-- The host's access right to a register (R11). -/
inductive Access where
  | rw | ro | wo
  deriving DecidableEq, Repr

/-- One turn of the total order of spec/20_memory.md R52 (log 1). -/
inductive Turn where
  /-- `MemRead(off, bytes)`: any offset, any width (R40, R48). -/
  | read (off bytes : Nat)
  /-- `MemWrite(off, bytes, v)`; only a 4-byte write has an effect, so one word of data is enough (R40, R48, log 8). -/
  | write (off bytes : Nat) (v : Word)
  /-- Hardware reset (spec/70_reset_and_hazards.md R220). -/
  | reset
  /-- The engine takes its completion step, if that is enabled (spec/30_encoding.md R64). -/
  | engine
  deriving DecidableEq, Repr

/-- The answer to a host transaction (R40). -/
inductive Answer where
  /-- `ok(word)` of a read. -/
  | okWord (w : Word)
  /-- `ok` of a write. -/
  | ok
  /-- `error`: refused, no state change, no data (spec/20_memory.md R48). -/
  | error
  deriving DecidableEq, Repr

/-- The machine: the registers of R11, the hidden register CUR_CMD of R27, the mark for the scratch state of R28, and the
three fields that are the MODEL's own (schedule, answers, freeReads). -/
structure State where
  /-- STATUS (R13). -/
  status : Status
  /-- CUR_CMD, the accepted command word; hidden from the host (R27). -/
  curCmd : Word
  /-- TIME_MS, milliseconds since the Unix epoch (R15). -/
  timeMs : BitVec 64
  /-- PERIOD, in seconds (R16). -/
  period : Word
  /-- SECRET_LEN, the bytes of SECRET that form the Secret (R17). -/
  secretLen : Word
  /-- KEYLEN, the bytes of KEY that form the Key (R18). -/
  keyLen : Word
  /-- REMAINING (R19). -/
  remaining : Word
  /-- BINARY, the 31-bit truncated value (R20). -/
  binary : Word
  /-- CODE (R21). -/
  code : Word
  /-- SECRET, the text (R22). -/
  secret : Vector Byte 128
  /-- KEY (R23). -/
  key : Vector Byte 80
  /-- MSG, the HMAC message (R24). -/
  msg : Vector Byte 8
  /-- DIGEST (R25). -/
  digest : Vector Byte 20
  /-- CODE_STR (R26). -/
  codeStr : Vector Byte 6
  /-- The scratch state (R28, log 4). -/
  scratch : Scratch
  /-- MODEL's own: the turns still to be taken, oldest first (log 1). -/
  schedule : List Turn
  /-- MODEL's own: what the port has answered, oldest first (log 6). -/
  answers : List Answer
  /-- MODEL's own: how many reads were made while BUSY = 1; it indexes the free value of spec/20_memory.md R49 (log 2). -/
  freeReads : Nat
  deriving DecidableEq, Repr

/-- Why the MODEL would stop with a fault: never. spec/93_implementation_defined.md part 1 says "There is no **stuck**
behaviour", the hardware's own faults are next states, and a port error is an answer; so there is no constructor (log 9). -/
inductive Fault
  deriving DecidableEq, Repr

/-- Why the MODEL would refuse an instruction. -/
inductive Refusal where
  /-- Raised by an arm of `exec` whose instruction has no meaning yet; safe. No arm raises it. -/
  | notModelled (mnemonic : String)
  deriving DecidableEq, Repr

/-- STATUS = 0 (R30). -/
def Status.reset : Status := { busy := false, done := false, fault := false, fcode := 0 }

/-- The machine right after hardware reset (R30, R220), with no turn left to take and nothing answered yet (log 6). -/
def State.reset : State :=
  { status := Status.reset
    curCmd := 0
    timeMs := 0
    period := 30
    secretLen := 0
    keyLen := 0
    remaining := 0
    binary := 0
    code := 0
    secret := Vector.replicate 128 0
    key := Vector.replicate 80 0
    msg := Vector.replicate 8 0
    digest := Vector.replicate 20 0
    codeStr := Vector.replicate 6 0
    scratch := .cleared
    schedule := []
    answers := []
    freeReads := 0 }

end Sys2Proof.Machine
end

