-- ==== Sys2Proof/Machine/Operands.lean ====
section
/-! DEFINITION. Byte order, byte buffers and the register window: how the operands of commands and of host transactions
are found (spec/00_scope.md R6, R7; spec/20_memory.md R42 to R44, R51; spec/10_state.md R11). -/

namespace Sys2Proof.Machine

/-- `rotl32(x, n)` for 0 < n < 32 (R6). -/
def rotl32 (x : Word) (n : Nat) : Word := (x <<< n) ||| (x >>> (32 - n))

/-- Byte `k` of a word counted from its most significant end: bits [31 - 8k : 24 - 8k] (R43). -/
def lane (v : Word) (k : Nat) : Byte := v.extractLsb' (24 - 8 * k) 8

/-- `b0 << 24 | b1 << 16 | b2 << 8 | b3` (R7). -/
def joinBytes (b0 b1 b2 b3 : Byte) : Word := b0 ++ b1 ++ b2 ++ b3

/-- `be32(B, i)` of a byte sequence (R7). -/
def be32 (bs : List Byte) (i : Nat) : Word :=
  joinBytes (bs.getD i 0) (bs.getD (i + 1) 0) (bs.getD (i + 2) 0) (bs.getD (i + 3) 0)

/-- `bytes_be(v, n)`: n bytes, the first the most significant (R7). -/
def bytesBe (v n : Nat) : List Byte := (List.range n).map fun i => BitVec.ofNat 8 (v / 256 ^ (n - 1 - i))

/-- A byte buffer of `n` bytes that holds a byte sequence from index 0 on, and 0x00 after it. -/
def bufOf (n : Nat) (bs : List Byte) : Vector Byte n := Vector.ofFn fun i => bs.getD i.val 0

/-- `B[i]` of a buffer, 0x00 past its end: the two bytes of the word CODE_STR1 that are no byte of CODE_STR read 0 (R43). -/
def byteAt {n : Nat} (b : Vector Byte n) (i : Nat) : Byte := b.toList.getD i 0

/-- The word at `base + 4j` of a buffer: `be32(B, 4j)` (R43). -/
def wordAt {n : Nat} (b : Vector Byte n) (j : Nat) : Word := be32 b.toList (4 * j)

/-- A host write of `v` to the word `j` of a buffer: `B[4j] <- v[31:24]` to `B[4j+3] <- v[7:0]` (R43). -/
def setWord {n : Nat} (b : Vector Byte n) (j : Nat) (v : Word) : Vector Byte n :=
  Vector.ofFn fun i => if i.val / 4 = j then lane v (i.val % 4) else b[i]

/-- `TIME_MS[31:0]`, the word at 0x008 (R44). -/
def lowWord (t : BitVec 64) : Word := t.extractLsb' 0 32

/-- `TIME_MS[63:32]`, the word at 0x00C (R44). -/
def highWord (t : BitVec 64) : Word := t.extractLsb' 32 32

/-- The 64-bit value with the two halves `hi` and `lo` (R44). -/
def joinWords (hi lo : Word) : BitVec 64 := hi ++ lo

/-- The Secret: `SECRET[0 .. SECRET_LEN-1]` (R22, R51), when SECRET_LEN <= 128. -/
def secretText (s : State) : List Byte := s.secret.toList.take s.secretLen.toNat

/-- The Key: `KEY[0 .. KEYLEN-1]` (R23, R51). -/
def keyBytes (s : State) : List Byte := s.key.toList.take s.keyLen.toNat

/-- The byte offset of a register in the window (R42). -/
def Reg.offset : Reg → Nat
  | .cmd => 0x000
  | .status => 0x004
  | .timeMsLo => 0x008
  | .timeMsHi => 0x00C
  | .period => 0x010
  | .secretLen => 0x014
  | .keyLen => 0x018
  | .remaining => 0x01C
  | .msg j => 0x020 + 4 * j.val
  | .binary => 0x028
  | .code => 0x02C
  | .codeStr j => 0x030 + 4 * j.val
  | .digest j => 0x040 + 4 * j.val
  | .key j => 0x080 + 4 * j.val
  | .secret j => 0x100 + 4 * j.val

/-- The column "host" of R42. -/
def Reg.access : Reg → Access
  | .cmd => .wo
  | .status => .ro
  | .timeMsLo => .rw
  | .timeMsHi => .rw
  | .period => .rw
  | .secretLen => .rw
  | .keyLen => .ro
  | .remaining => .ro
  | .msg _ => .rw
  | .binary => .ro
  | .code => .ro
  | .codeStr _ => .ro
  | .digest _ => .rw
  | .key _ => .ro
  | .secret _ => .rw

/-- The rows of the table of R42, in its order. -/
def Reg.all : List Reg :=
  [.cmd, .status, .timeMsLo, .timeMsHi, .period, .secretLen, .keyLen, .remaining]
    ++ (List.finRange 2).map .msg ++ [.binary, .code] ++ (List.finRange 2).map .codeStr
    ++ (List.finRange 5).map .digest ++ (List.finRange 20).map .key ++ (List.finRange 32).map .secret

/-- The register a transaction of `bytes` bytes at `off` reaches, or none where R48 refuses it: only a 4-byte access at
exactly the offset of a register of R42 reaches one (so the offset is a multiple of 4 and inside the window). -/
def Reg.reached (off bytes : Nat) : Option Reg :=
  if bytes = 4 then Reg.all.find? (fun r => r.offset == off) else none

end Sys2Proof.Machine
end

