-- ==== Sys2Proof/Machine/Flags.lean ====
section
/-! DEFINITION. STATUS: its word, and every way its flags change (spec/10_state.md R13, spec/30_encoding.md R63, R64,
spec/60_exceptions.md R190, R193). The block has no other flags: "no arithmetic result sets a flag" (R13). -/

namespace Sys2Proof.Machine

/-- The number of a fault code (R190). -/
def FaultCode.bits : FaultCode → BitVec 4
  | .badCmd => 1
  | .lenRange => 2
  | .periodZero => 3
  | .counterRange => 4

/-- STATUS as the host reads it: bits 31:8 zero, FCODE in 7:4, bit 3 zero, FAULT, DONE, BUSY (R13). -/
def Status.word (f : Status) : Word :=
  (0 : BitVec 24) ++ f.fcode ++ (0 : BitVec 1) ++ BitVec.ofBool f.fault ++ BitVec.ofBool f.done ++ BitVec.ofBool f.busy

/-- Acceptance: BUSY <- 1, DONE <- 0; FAULT and FCODE keep their values (R63). -/
def Status.accepted (f : Status) : Status := { f with busy := true, done := false }

/-- Completion without a fault: BUSY <- 0, DONE <- 1 (R64); FAULT and FCODE keep their values (log 13). -/
def Status.completed (f : Status) : Status := { f with busy := false, done := true }

/-- Fault entry: BUSY <- 0, DONE <- 0, FAULT <- 1, FCODE <- code (R193). -/
def Status.faulted (c : FaultCode) : Status := { busy := false, done := false, fault := true, fcode := c.bits }

end Sys2Proof.Machine
end

