-- ==== Sys2Proof/Machine/Ops.lean ====
section
/-! DEFINITION. The named operations over the registers: completing a command, taking a fault and returning from one,
accepting a command word, and the host's reads and writes of the window. -/

namespace Sys2Proof.Machine

/-- What one step of the machine answers. -/
abbrev Result := Host.Outcome State Fault Refusal

/-- The end of a command that did not fault (spec/30_encoding.md R64); the units' scratch may now hold anything (log 4). -/
def finish (s : State) : State := { s with status := s.status.completed, scratch := .arbitrary }

/-- TAKING A FAULT: `raise Fault(code)` writes STATUS and no other register (spec/60_exceptions.md R193). -/
def raiseFault (c : FaultCode) (s : State) : State := { s with status := Status.faulted c, scratch := .arbitrary }

/-- RETURNING FROM A FAULT, by WIPE or by hardware reset: every register takes its reset value (spec/60_exceptions.md R196,
spec/10_state.md R30). What is not the block's (the turns to come, the answers given, the free value's counter) stays (log 6). -/
def clearBlock (s : State) : State :=
  { State.reset with schedule := s.schedule, answers := s.answers, freeReads := s.freeReads }

/-- Acceptance of the word `w` written to CMD (spec/30_encoding.md R63, its three cases). -/
def acceptCommand (w : Word) (s : State) : State :=
  if s.status.busy then s
  else if s.status.fault && w != encode .wipe then s
  else { s with curCmd := w, status := s.status.accepted }

/-- The word contents of a register (spec/20_memory.md R42 to R44); CMD reads 0 (spec/10_state.md R14). -/
def readReg (s : State) : Reg → Word
  | .cmd => 0
  | .status => s.status.word
  | .timeMsLo => lowWord s.timeMs
  | .timeMsHi => highWord s.timeMs
  | .period => s.period
  | .secretLen => s.secretLen
  | .keyLen => s.keyLen
  | .remaining => s.remaining
  | .msg j => wordAt s.msg j
  | .binary => s.binary
  | .code => s.code
  | .codeStr j => wordAt s.codeStr j
  | .digest j => wordAt s.digest j
  | .key j => wordAt s.key j
  | .secret j => wordAt s.secret j

/-- A host write of `v` to a register while BUSY = 0: an RW register takes it, for an RO register it is discarded, for CMD
it is an attempt to issue a command (spec/20_memory.md R47). -/
def writeReg (r : Reg) (v : Word) (s : State) : State :=
  match r with
  | .cmd => acceptCommand v s
  | .timeMsLo => { s with timeMs := joinWords (highWord s.timeMs) v }
  | .timeMsHi => { s with timeMs := joinWords v (lowWord s.timeMs) }
  | .period => { s with period := v }
  | .secretLen => { s with secretLen := v }
  | .msg j => { s with msg := setWord s.msg j v }
  | .digest j => { s with digest := setWord s.digest j v }
  | .secret j => { s with secret := setWord s.secret j v }
  | .status => s
  | .keyLen => s
  | .remaining => s
  | .binary => s
  | .code => s
  | .codeStr _ => s
  | .key _ => s

/-- The port answers (log 6). -/
def answer (a : Answer) (s : State) : State := { s with answers := s.answers ++ [a] }

/-- A host read transaction (spec/20_memory.md R46, R48, R49). While BUSY = 1 a register other than STATUS reads as the
next free value (logs 2 and 3). -/
def hostRead (off bytes : Nat) (s : State) : State :=
  match Reg.reached off bytes with
  | none => answer .error s
  | some r =>
    if s.status.busy && r != .status then
      answer (.okWord (Config.busyReadWord s.freeReads)) { s with freeReads := s.freeReads + 1 }
    else answer (.okWord (readReg s r)) s

/-- A host write transaction (spec/20_memory.md R47, R48, R49). While BUSY = 1 it is discarded with answer `ok`. -/
def hostWrite (off bytes : Nat) (v : Word) (s : State) : State :=
  match Reg.reached off bytes with
  | none => answer .error s
  | some r => if s.status.busy then answer .ok s else answer .ok (writeReg r v s)

end Sys2Proof.Machine
end

