-- ==== Sys2Proof/Machine/Base32.lean ====
section
/-! DEFINITION. The Base32 decoder and the command DECODE (spec/40_base32_decode.md R80 to R85). -/

namespace Sys2Proof.Machine

/-- `fold(c)`: 'a'..'z' to 'A'..'Z' (R80). -/
def foldCase (c : Byte) : Byte := if 0x61 ≤ c.toNat ∧ c.toNat ≤ 0x7A then c - 0x20 else c

/-- `value(c)`: the 5-bit index of a valid character, none for a byte that is stripped (R80). -/
def b32value (c : Byte) : Option (BitVec 5) :=
  let f := (foldCase c).toNat
  if 0x41 ≤ f ∧ f ≤ 0x5A then some (BitVec.ofNat 5 (f - 0x41))
  else if 0x32 ≤ f ∧ f ≤ 0x37 then some (BitVec.ofNat 5 (f - 0x32 + 26))
  else none

/-- The loop of R82 over the values of the valid characters: `acc` holds `nbits` bits; `(acc << 5) | v` is
`acc * 32 + v`, `acc >> k` is `acc / 2^k` and the mask of k ones is `% 2^k`, on these unsigned integers. -/
def b32loop (acc nbits : Nat) : List (BitVec 5) → List Byte
  | [] => []
  | v :: vs =>
    let acc' := acc * 32 + v.toNat
    let n' := nbits + 5
    if 8 ≤ n' then BitVec.ofNat 8 (acc' / 2 ^ (n' - 8)) :: b32loop (acc' % 2 ^ (n' - 8)) (n' - 8) vs
    else b32loop acc' n' vs

/-- The values of the valid characters of a text, in order; every other byte is stripped (R80, R82). -/
def b32values (text : List Byte) : List (BitVec 5) := text.filterMap b32value

/-- `b32decode(S)` (R82): total, no error; leftover bits are discarded. -/
def b32decode (text : List Byte) : List Byte := b32loop 0 0 (b32values text)

/-- DECODE (R85). -/
def execDecode (s : State) : Result :=
  if Config.secretMax < s.secretLen.toNat then .next (raiseFault .lenRange s)
  else
    let k := b32decode (secretText s)
    .next (finish { s with key := bufOf 80 k, keyLen := BitVec.ofNat 32 k.length })

end Sys2Proof.Machine
end

