-- ==== Sys2Proof/Machine/CounterTime.lean ====
section
/-! DEFINITION. Counter and time-window arithmetic, and the commands COUNTER and REMAIN (spec/41_counter_time.md R100 to
R107). All of it is exact unsigned arithmetic (R100), so it is done on Nat. -/

namespace Sys2Proof.Machine

/-- `counter_of(t, p)` (R101). -/
def counterOf (t p : Nat) : Nat := t / (1000 * p)

/-- `counter_bytes(c)` for c < 2^32: four zero bytes and the counter, big-endian (R102). -/
def counterBytes (c : Nat) : List Byte := List.replicate 4 0 ++ bytesBe c 4

/-- `remaining_of(t, p)` (R105). -/
def remainingOf (t p : Nat) : Nat := p - t / 1000 % p

/-- COUNTER (R103). -/
def execCounter (s : State) : Result :=
  if s.period = 0 then .next (raiseFault .periodZero s)
  else
    let c := counterOf s.timeMs.toNat s.period.toNat
    if Config.counterLimit ≤ c then .next (raiseFault .counterRange s)
    else .next (finish { s with msg := bufOf 8 (counterBytes c) })

/-- REMAIN (R106). -/
def execRemain (s : State) : Result :=
  if s.period = 0 then .next (raiseFault .periodZero s)
  else .next (finish { s with remaining := BitVec.ofNat 32 (remainingOf s.timeMs.toNat s.period.toNat) })

end Sys2Proof.Machine
end

