-- ==== Sys2Proof/Machine/Sha1.lean ====
section
/-! DEFINITION. SHA-1 (spec/42_hmac_sha1.md R121 to R127; the spec marks these rules as general knowledge, G1 and G2 of
spec/93_implementation_defined.md). -/

namespace Sys2Proof.Machine

/-- Five words: a chaining value (h0 .. h4) or the working variables (a, bb, c, d, e) (R126). -/
structure Chain where
  a : Word
  b : Word
  c : Word
  d : Word
  e : Word
  deriving DecidableEq, Repr

/-- The initial chaining value H0 .. H4 (R122). -/
def sha1Init : Chain :=
  { a := 0x67452301, b := 0xEFCDAB89, c := 0x98BADCFE, d := 0x10325476, e := 0xC3D2E1F0 }

/-- The round constant `K(t)` (R122). -/
def sha1K (t : Nat) : Word :=
  if t ≤ 19 then 0x5A827999 else if t ≤ 39 then 0x6ED9EBA1 else if t ≤ 59 then 0x8F1BBCDC else 0xCA62C1D6

/-- The round function `f(t, x, y, z)`: choose, parity, majority, parity (R125). -/
def sha1F (t : Nat) (x y z : Word) : Word :=
  if t ≤ 19 then (x &&& y) ||| (~~~x &&& z)
  else if t ≤ 39 then x ^^^ y ^^^ z
  else if t ≤ 59 then (x &&& y) ||| (x &&& z) ||| (y &&& z)
  else x ^^^ y ^^^ z

/-- `pad(M)`: M, 0x80, z zero bytes, the length in bits as 8 bytes (R123). -/
def sha1Pad (m : List Byte) : List Byte :=
  m ++ [0x80] ++ List.replicate ((119 - m.length % 64) % 64) 0 ++ bytesBe (8 * m.length) 8

/-- The first `n` blocks of 64 bytes (R123). -/
def blocksOf : Nat → List Byte → List (List Byte)
  | 0, _ => []
  | n + 1, bs => bs.take Config.blockSize :: blocksOf n (bs.drop Config.blockSize)

/-- The blocks of `pad(M)`, N = (L + 8) div 64 + 1 of them (R123). -/
def sha1Blocks (m : List Byte) : List (List Byte) := blocksOf ((m.length + 8) / 64 + 1) (sha1Pad m)

/-- `W(t)` from the words before it, newest first: `rotl32(W(t-3) ^ W(t-8) ^ W(t-14) ^ W(t-16), 1)` (R124). -/
def sha1NextW (newestFirst : List Word) : Word :=
  rotl32 (newestFirst.getD 2 0 ^^^ newestFirst.getD 7 0 ^^^ newestFirst.getD 13 0 ^^^ newestFirst.getD 15 0) 1

/-- `n` more words of the schedule, newest first (R124). -/
def sha1Extend : Nat → List Word → List Word
  | 0, ws => ws
  | n + 1, ws => sha1Extend n (sha1NextW ws :: ws)

/-- The schedule `W(0) .. W(79)` of a block: sixteen big-endian words, then 64 computed ones (R124). -/
def sha1Schedule (block : List Byte) : List Word :=
  (sha1Extend 64 ((List.range 16).map fun t => be32 block (4 * t)).reverse).reverse

/-- Round `t` with the schedule's word `w`: one simultaneous shift of the working variables (R126). -/
def sha1Round (t : Nat) (w : Word) (v : Chain) : Chain :=
  { a := rotl32 v.a 5 + sha1F t v.b v.c v.d + v.e + sha1K t + w
    b := v.a
    c := rotl32 v.b 30
    d := v.c
    e := v.d }

/-- The rounds from `t` on, one for each word left of the schedule (R126). -/
def sha1Rounds : Nat → List Word → Chain → Chain
  | _, [], v => v
  | t, w :: ws, v => sha1Rounds (t + 1) ws (sha1Round t w v)

/-- `compress(h, b)` (R126). -/
def compress (h : Chain) (block : List Byte) : Chain :=
  let v := sha1Rounds 0 (sha1Schedule block) h
  { a := h.a + v.a, b := h.b + v.b, c := h.c + v.c, d := h.d + v.d, e := h.e + v.e }

/-- The 20 bytes of a chaining value, each word big-endian (R127). -/
def Chain.bytes (h : Chain) : List Byte :=
  bytesBe h.a.toNat 4 ++ bytesBe h.b.toNat 4 ++ bytesBe h.c.toNat 4 ++ bytesBe h.d.toNat 4 ++ bytesBe h.e.toNat 4

/-- `sha1(M)` (R127). -/
def sha1 (m : List Byte) : List Byte := ((sha1Blocks m).foldl compress sha1Init).bytes

end Sys2Proof.Machine
end

