-- ==== Sys2Proof/Machine/Hmac.lean ====
section
/-! DEFINITION. HMAC-SHA1 and the command HMAC (spec/42_hmac_sha1.md R129, R130). -/

namespace Sys2Proof.Machine

/-- `k0`, 64 bytes: a key longer than 64 bytes is hashed first; then zero bytes on the right (R129). -/
def hmacKey0 (key : List Byte) : List Byte :=
  if Config.blockSize < key.length then sha1 key ++ List.replicate 44 0
  else key ++ List.replicate (Config.blockSize - key.length) 0

/-- `k0[i] ^ b` for every i: ipad with b = 0x36, opad with b = 0x5C (R129). -/
def hmacPad (k0 : List Byte) (b : Byte) : List Byte := k0.map (· ^^^ b)

/-- `hmac_sha1(key, msg)` (R129). -/
def hmacSha1 (key msg : List Byte) : List Byte :=
  let k0 := hmacKey0 key
  sha1 (hmacPad k0 0x5C ++ sha1 (hmacPad k0 0x36 ++ msg))

/-- HMAC (R130). -/
def execHmac (s : State) : Result :=
  .next (finish { s with digest := bufOf 20 (hmacSha1 (keyBytes s) s.msg.toList) })

end Sys2Proof.Machine
end

