-- ==== Sys2Proof/Machine/Truncate.lean ====
section
/-! DEFINITION. Dynamic truncation, reduction modulo 10^6, formatting, and the command TRUNC (spec/43_truncation.md R150 to
R154). -/

namespace Sys2Proof.Machine

/-- `dt_offset(D) = D[19] & 0x0F` (R150). -/
def dtOffset (d : List Byte) : Nat := (d.getD 19 0 &&& 0x0F).toNat

/-- `dt_binary(D) = be32(D, o) & 0x7FFFFFFF` (R151). -/
def dtBinary (d : List Byte) : Word := be32 d (dtOffset d) &&& 0x7FFFFFFF

/-- `code_of(b) = b mod 1,000,000` (R152). -/
def codeOf (b : Word) : Nat := b.toNat % Config.modulus

/-- `code_str(n)[i] = 0x30 + ((n div 10^(5-i)) mod 10)`, i = 0 .. 5 (R153). -/
def codeStrOf (n : Nat) : List Byte := (List.range 6).map fun i => BitVec.ofNat 8 (0x30 + n / 10 ^ (5 - i) % 10)

/-- The three outputs of the truncation of a digest: BINARY, CODE, CODE_STR (R154). -/
def withCode (d : List Byte) (s : State) : State :=
  let b := dtBinary d
  let n := codeOf b
  { s with binary := b, code := BitVec.ofNat 32 n, codeStr := bufOf 6 (codeStrOf n) }

/-- TRUNC (R154). -/
def execTrunc (s : State) : Result := .next (finish (withCode s.digest.toList s))

end Sys2Proof.Machine
end

