-- ==== Sys2Proof/Machine/Generate.lean ====
section
/-! DEFINITION. The command GENERATE (spec/44_generate.md R165). -/

namespace Sys2Proof.Machine

/-- GENERATE (R165). Both fault conditions are decided before any register is written; the period is the constant 30. -/
def execGenerate (s : State) : Result :=
  if Config.secretMax < s.secretLen.toNat then .next (raiseFault .lenRange s)
  else
    let c := counterOf s.timeMs.toNat Config.genPeriod
    if Config.counterLimit ≤ c then .next (raiseFault .counterRange s)
    else
      let k := b32decode (secretText s)
      let m := counterBytes c
      let d := hmacSha1 k m
      .next (finish (withCode d
        { s with key := bufOf 80 k, keyLen := BitVec.ofNat 32 k.length, msg := bufOf 8 m, digest := bufOf 20 d }))

end Sys2Proof.Machine
end

