-- ==== Sys2Proof/Machine/Wipe.lean ====
section
/-! DEFINITION. The command WIPE (spec/45_system_wipe.md R180). -/

namespace Sys2Proof.Machine

/-- WIPE (R180): every register, CUR_CMD and the scratch take their reset values; STATUS reads 0, so DONE = 0. -/
def execWipe (s : State) : Result := .next (clearBlock s)

end Sys2Proof.Machine
end

