-- ==== Sys2Proof/Machine/Dispatch.lean ====
section
/-! DEFINITION. The completion step of each command (spec/30_encoding.md R64): one arm per constructor of Instr. -/

namespace Sys2Proof.Machine

/-- The completion step of a command: its own meaning (R64). -/
def exec (i : Instr) (s : State) : Host.Outcome State Fault Refusal :=
  match i with
  | .decode => Sys2Proof.Machine.execDecode s
  | .counter => Sys2Proof.Machine.execCounter s
  | .hmac => Sys2Proof.Machine.execHmac s
  | .trunc => Sys2Proof.Machine.execTrunc s
  | .generate => Sys2Proof.Machine.execGenerate s
  | .remain => Sys2Proof.Machine.execRemain s
  | .wipe => Sys2Proof.Machine.execWipe s

end Sys2Proof.Machine
end

