-- ==== Sys2Proof/Machine/Engine.lean ====
section
/-! DEFINITION. The engine's completion step and one turn of each agent (spec/30_encoding.md R64, spec/10_state.md R10,
spec/20_memory.md R52). -/

namespace Sys2Proof.Machine

/-- The completion step: decode CUR_CMD and run the selected command; a word that is no command raises Fault(1)
(R64, R65). -/
def complete (s : State) : Result :=
  match decode s.curCmd with
  | .ok i => exec i s
  | .error _ => .next (raiseFault .badCmd s)

/-- The engine's turn: the completion step is enabled only while BUSY = 1 (R10, R64); otherwise nothing changes (log 14). -/
def engineTurn (s : State) : Result := if s.status.busy then complete s else .next s

/-- One turn of the total order, `s` being the state with that turn taken off the schedule. -/
def takeTurn (t : Turn) (s : State) : Result :=
  match t with
  | .read off bytes => .next (hostRead off bytes s)
  | .write off bytes v => .next (hostWrite off bytes v s)
  | .reset => .next (clearBlock s)
  | .engine => engineTurn s

/-- The state in which the word `w` is the accepted command and the engine has the next turn (log 12). -/
def withCommand (w : Word) (s : State) : State :=
  { s with curCmd := w, status := s.status.accepted, schedule := .engine :: s.schedule }

end Sys2Proof.Machine
end

