-- ==== Sys2Proof/Machine/Step.lean ====
section
/-! DEFINITION. One step of the machine: the next turn of the total order (spec/20_memory.md R52). -/

namespace Sys2Proof.Machine

/-- One step. The oldest turn of the schedule is taken; when none is left a busy engine completes its command ("taken
exactly once, a finite unspecified time after acceptance", spec/30_encoding.md R64) and an idle block keeps its state
(spec/60_exceptions.md R202). -/
def step (s : State) : Host.Outcome State Fault Refusal :=
  match s.schedule with
  | [] => engineTurn s
  | t :: rest => takeTurn t { s with schedule := rest }

/-- `s` with the table word `w` as its accepted command, completing at the very next step (log 12). -/
def State.withFetchWord (s : State) (nbits w : Nat) : State := withCommand (tableWord nbits w) s

end Sys2Proof.Machine
end

