-- ==== Sys2Proof/Machine/HostScript.lean ====
section
/-! DEFINITION. The host-script statements and pseudo-instructions of spec/30_encoding.md R67 and R68, each as the list of
turns it expands into. -/

namespace Sys2Proof.Machine.Script

/-- `RD <reg>` (R67). -/
def rd (r : Reg) : List Turn := [.read r.offset 4]

/-- `WR <reg>, <value>` (R67). -/
def wr (r : Reg) (v : Word) : List Turn := [.write r.offset 4 v]

/-- A bare mnemonic: `WR CMD, <word of rule R62>` (R68). -/
def issue (i : Instr) : List Turn := wr .cmd (encode i)

/-- `WAIT`: read STATUS until BUSY = 0 (R68). The host polls `polls` times before the engine's turn and once after it;
every number of polls, 0 included, is possible (LATENCY, log 11). -/
def wait (polls : Nat) : List Turn := (List.replicate polls (rd .status)).flatten ++ [.engine] ++ rd .status

/-- `TIME <t>` (R68). -/
def time (t : BitVec 64) : List Turn := wr .timeMsLo (lowWord t) ++ wr .timeMsHi (highWord t)

/-- The word writes of `SECRETSTR` from word `j` on: `n` words of the text, padded with 0x00 bytes (R68). -/
def secretWords (text : List Byte) (n : Nat) : List Turn :=
  (List.range n).map fun j => .write (0x100 + 4 * j) 4 (be32 text (4 * j))

/-- `SECRETSTR "<text>"` for a text of at most 128 bytes: ceil(n/4) words, then SECRET_LEN (R68). -/
def secretStr (text : List Byte) : List Turn :=
  secretWords text ((text.length + 3) / 4) ++ wr .secretLen (BitVec.ofNat 32 text.length)

/-- `MSGBYTES`: the two words of an 8-byte message (R68). -/
def msgBytes (m : List Byte) : List Turn := wr (.msg 0) (be32 m 0) ++ wr (.msg 1) (be32 m 4)

/-- `DIGESTBYTES`: the five words of a 20-byte digest (R68). -/
def digestBytes (d : List Byte) : List Turn :=
  (List.finRange 5).flatMap fun j => wr (.digest j) (be32 d (4 * j.val))

end Sys2Proof.Machine.Script
end

