-- ==== Sys2Proof/Safety.lean ====
section
/-! DEFINITION. What counts as a sound state of the block, when a command faults, and the spec's second wordings of its data
functions: the terms the statements use. Nothing here is called by the machine. -/

namespace Sys2Proof.Machine

/-- The relations the spec states among the registers: the flags (spec/10_state.md R13; FCODE by spec/60_exceptions.md
R190), KEYLEN (R18), the zero fill of KEY (R23), BINARY (R20), CODE (R21), and CODE_STR, which is the text of CODE or the
six zero bytes of reset (R26, spec/43_truncation.md R155). -/
structure State.Inv (s : State) : Prop where
  done_alone : s.status.done = true → s.status.busy = false ∧ s.status.fault = false
  busy_in_fault : s.status.busy = true → s.status.fault = true → s.curCmd = encode .wipe
  fcode_clear : s.status.fault = false → s.status.fcode = 0
  fcode_named : s.status.fault = true → ∃ c : FaultCode, s.status.fcode = c.bits
  keyLen_le : s.keyLen.toNat ≤ Config.keyMax
  key_tail : ∀ j, s.keyLen.toNat ≤ j → byteAt s.key j = 0
  binary_lt : s.binary.toNat < 2 ^ 31
  code_eq : s.code.toNat = s.binary.toNat % Config.modulus
  codeStr_eq : s.codeStr = bufOf 6 (codeStrOf s.code.toNat) ∨ (s.codeStr = Vector.replicate 6 0 ∧ s.binary = 0)

/-- KEY and KEYLEN are the decoding of some text the buffer can hold (R23). Every sequence of at most 80 bytes is such a
decoding, so this alone says KEYLEN <= 80 and zeros after the Key; where a key comes from is said about steps. -/
def State.KeyDecoded (s : State) : Prop :=
  ∃ text : List Byte, text.length ≤ Config.secretMax ∧ s.key = bufOf 80 (b32decode text) ∧
    s.keyLen.toNat = (b32decode text).length

/-- The fault a command ends in, by the causes of spec/60_exceptions.md R190 in the order of R195. The counter does not fit
32 bits exactly when TIME_MS >= 2^32 * 1000 * p (spec/41_counter_time.md R103). -/
def faultOf (i : Instr) (s : State) : Option FaultCode :=
  match i with
  | .decode => if s.secretLen.toNat ≤ 128 then none else some .lenRange
  | .counter =>
    if s.period.toNat = 0 then some .periodZero
    else if s.timeMs.toNat < 2 ^ 32 * 1000 * s.period.toNat then none else some .counterRange
  | .hmac => none
  | .trunc => none
  | .generate =>
    if 128 < s.secretLen.toNat then some .lenRange
    else if s.timeMs.toNat < 2 ^ 32 * 30000 then none else some .counterRange
  | .remain => if s.period.toNat = 0 then some .periodZero else none
  | .wipe => none

/-- `t` holds what `s` holds in every register of the block and in the scratch mark: only the model's own fields differ. -/
def SameRegisters (s t : State) : Prop :=
  t = { s with schedule := t.schedule, answers := t.answers, freeReads := t.freeReads }

/-- The engine has the turn: it is the next of the schedule, or none is left (log 1). -/
def EngineHasTheTurn (s : State) : Prop := s.schedule = [] ∨ ∃ rest, s.schedule = .engine :: rest

/-- The step from `s` is a reset turn or the completion of WIPE, the two that clear the block (spec/60_exceptions.md R196). -/
def ClearsTheBlock (s : State) : Prop :=
  (∃ rest, s.schedule = .reset :: rest) ∨ (s.status.busy = true ∧ EngineHasTheTurn s ∧ s.curCmd = 0x00000007)

/-- The step from `s` is a host write of a word at `off` while BUSY = 0 (spec/20_memory.md R47). -/
def HostWritesAt (off : Nat) (s : State) : Prop :=
  s.status.busy = false ∧ ∃ v rest, s.schedule = .write off 4 v :: rest

/-- A turn in which the host or the engine acts, not the reset input. -/
def Turn.notReset (t : Turn) : Bool := t != .reset

/-- A byte that maps to a Base32 value, a valid character (spec/40_base32_decode.md R80). -/
def b32valid (c : Byte) : Bool := (b32value c).isSome

/-- A text with every invalid byte removed and every lower-case letter replaced by its upper-case form (R83). -/
def cleanText (text : List Byte) : List Byte := (text.filter b32valid).map foldCase

/-- The five bits of a value, most significant first (R82). -/
def fiveBits (v : BitVec 5) : List Bool :=
  [v.getLsbD 4, v.getLsbD 3, v.getLsbD 2, v.getLsbD 1, v.getLsbD 0]

/-- Eight bits, most significant first, as a byte. -/
def byteOfBits (b7 b6 b5 b4 b3 b2 b1 b0 : Bool) : Byte :=
  BitVec.ofBool b7 ++ BitVec.ofBool b6 ++ BitVec.ofBool b5 ++ BitVec.ofBool b4 ++ BitVec.ofBool b3 ++ BitVec.ofBool b2
    ++ BitVec.ofBool b1 ++ BitVec.ofBool b0

/-- "Re-group the bitstream into 8-bit bytes, most-significant-bit first; discard any trailing bits that do not complete a
full byte" (R82). -/
def regroup : List Bool → List Byte
  | b7 :: b6 :: b5 :: b4 :: b3 :: b2 :: b1 :: b0 :: rest => byteOfBits b7 b6 b5 b4 b3 b2 b1 b0 :: regroup rest
  | _ => []

/-- The number six ASCII digits stand for. -/
def decimalValue (digits : List Byte) : Nat := digits.foldl (fun n c => 10 * n + (c.toNat - 0x30)) 0

/-- A byte is an ASCII digit (spec/43_truncation.md R153). -/
def isDigit (c : Byte) : Bool := decide (0x30 ≤ c.toNat) && decide (c.toNat ≤ 0x39)

end Sys2Proof.Machine
end

