-- ==== Sys2Proof/Certificates/Slice0/Obligations.lean ====
section
/-! DEFINITION. The statements about the OtpEngine core, one `def Obligations.<Name> : Prop` each, in the order of
OBLIGATIONS.json. The fields schedule, answers and freeReads are the model's own (logs 1, 2 and 6): they stand in for the
order of transactions, the answers of the port and the free value. What a command
leaves in the scratch (log 4) is claimed by no statement, but that WIPE and reset clear it. -/

open Sys2Proof Sys2Proof.Machine

/-! ## Encoding, issue and completion (spec/30_encoding.md) -/

/-- The decoder gives a command exactly for that command's word, all 32 bits compared, and the words are the column "word"
of R62. -/
def Obligations.DecodeSelectsExactlyTheCommandWord : Prop :=
  (∀ (w : Word) (i : Instr), decode w = .ok i ↔ w = encode i) ∧
  encode .decode = 0x00000001 ∧ encode .counter = 0x00000002 ∧ encode .hmac = 0x00000003 ∧ encode .trunc = 0x00000004 ∧
  encode .generate = 0x00000005 ∧ encode .remain = 0x00000006 ∧ encode .wipe = 0x00000007

/-- The seven words of R62, and five illegal words of V6.2 and V6.3, as the decoder reads them. -/
def Obligations.WrittenOutWordsDecodeAsListed : Prop :=
  decodeTableWord 32 0x00000001 = some .decode ∧ decodeTableWord 32 0x00000002 = some .counter ∧
  decodeTableWord 32 0x00000003 = some .hmac ∧ decodeTableWord 32 0x00000004 = some .trunc ∧
  decodeTableWord 32 0x00000005 = some .generate ∧ decodeTableWord 32 0x00000006 = some .remain ∧
  decodeTableWord 32 0x00000007 = some .wipe ∧ decodeTableWord 32 0x00000000 = none ∧
  decodeTableWord 32 0x00000008 = none ∧ decodeTableWord 32 0x000000FF = none ∧
  decodeTableWord 32 0x00000105 = none ∧ decodeTableWord 32 0x80000005 = none

/-- When CUR_CMD holds the word of a command, BUSY = 1 and the engine has the turn (it is the next turn of the schedule, or
none is left), the step is `exec` of that command at that state with the turn taken; a word that is no command ends in
fault 1 (R64). -/
def Obligations.StepRunsTheAcceptedCommand : Prop :=
  ∀ (s : State), s.status.busy = true →
    (∀ i, decode s.curCmd = .ok i →
      (s.schedule = [] → step s = exec i s) ∧
      (∀ rest, s.schedule = .engine :: rest → step s = exec i { s with schedule := rest })) ∧
    (∀ e, decode s.curCmd = .error e →
      (s.schedule = [] → step s = .next (raiseFault .badCmd s)) ∧
      (∀ rest, s.schedule = .engine :: rest → step s = .next (raiseFault .badCmd { s with schedule := rest })))

/-- `withFetchWord` (the model's way to place a command, log 12) makes the very next step run that command. -/
def Obligations.FetchWordRunsAtTheNextStep : Prop :=
  ∀ (s : State) (i : Instr), step (s.withFetchWord 32 (encode i).toNat) =
    exec i { s with curCmd := encode i, status := { s.status with busy := true, done := false } }

/-- Acceptance, the three cases of R63. -/
def Obligations.CommandAcceptance : Prop :=
  ∀ (s : State) (w : Word),
    (s.status.busy = true → hostWrite 0x000 4 w s = { s with answers := s.answers ++ [.ok] }) ∧
    (s.status.busy = false → s.status.fault = true → w ≠ 0x00000007 →
      hostWrite 0x000 4 w s = { s with answers := s.answers ++ [.ok] }) ∧
    (s.status.busy = false → (s.status.fault = false ∨ w = 0x00000007) →
      hostWrite 0x000 4 w s =
        { s with curCmd := w, status := { s.status with busy := true, done := false }, answers := s.answers ++ [.ok] })

/-- R65: a word is illegal exactly when it is none of the seven, that is when bits 31:8 are not zero or bits 7:0 are 0x00 or
0x08 to 0xFF; written to CMD while BUSY = 0 and FAULT = 0 it is accepted and completes with Fault(1), and nothing but STATUS
(and the hidden CUR_CMD) changes. -/
def Obligations.IllegalWordIsAcceptedAndFaults : Prop :=
  (∀ w : Word, commandWordOk w = false ↔ ∀ i, w ≠ encode i) ∧
  ∀ (s : State) (w : Word) (rest : List Turn), commandWordOk w = false → s.status.busy = false → s.status.fault = false →
    s.schedule = .write 0x000 4 w :: .engine :: rest →
    ∃ sc : Scratch, Host.Core.run core 2 s =
      .next { s with status := { busy := false, done := false, fault := true, fcode := 1 }, curCmd := w,
                     scratch := sc, schedule := rest, answers := s.answers ++ [.ok] }

/-- Everything a completion leaves in STATUS (R64; WIPE by R180): BUSY = 0 always; a fault sets FAULT and its code and clears
DONE; WIPE leaves all zero; any other command sets DONE and keeps FAULT and FCODE. -/
def Obligations.CompletionWritesTheFlags : Prop :=
  ∀ (s t : State), complete s = .next t →
    t.status.busy = false ∧
    ((∃ c : FaultCode, t.status = { busy := false, done := false, fault := true, fcode := c.bits }) ∨
      t.status = { busy := false, done := false, fault := false, fcode := 0 } ∨
      t.status = { s.status with busy := false, done := true })

/-- An accepted command completes: whatever the order of the turns to come, if none of them is a reset, then after at most as
many steps as there are turns the completion step is taken, and it is taken on the registers as they were (R64: "completion
always occurs"; R49: every input the command reads at completion equals its value at acceptance). LATENCY is the model's
schedule (log 1). -/
def Obligations.AcceptedCommandCompletesOnUnchangedRegisters : Prop :=
  ∀ s : State, s.status.busy = true → s.schedule.all Turn.notReset = true →
    ∃ (k : Nat) (u v : State), k ≤ s.schedule.length ∧ Host.Core.run core k s = .next u ∧ SameRegisters s u ∧
      SameRegisters s v ∧ Host.Core.run core (k + 1) s = complete v ∧
      ∃ t, complete v = .next t ∧ t.status.busy = false

/-- No step stops: there is no stuck behaviour (93 part 1), for every command word, flag and turn. -/
def Obligations.EveryStepAnswersANextState : Prop := ∀ s : State, ∃ t, step s = .next t

/-- The engine's turn while BUSY = 0, and a step with no turn left while BUSY = 0, change no register (R10, R202; that such
a turn exists and is idle is the model's choice, log 14). -/
def Obligations.IdleEngineChangesNothing : Prop :=
  ∀ s : State, s.status.busy = false →
    (s.schedule = [] → step s = .next s) ∧
    (∀ rest, s.schedule = .engine :: rest → step s = .next { s with schedule := rest })

/-! ## The host port (spec/20_memory.md) -/

/-- A transaction reaches a register exactly when no condition of R48 holds; it is then the register at that offset; and the
offsets and the host's rights are those of the table of R42. -/
def Obligations.AccessIsDefinedExactlyWhenItReachesARegister : Prop :=
  (∀ off bytes, accessOk off bytes = true ↔ ∃ r, Reg.reached off bytes = some r) ∧
  (∀ off bytes r, Reg.reached off bytes = some r ↔ bytes = 4 ∧ off = r.offset) ∧
  (∀ r : Reg, match r with
    | .cmd => r.offset = 0x000 ∧ r.access = .wo
    | .status => r.offset = 0x004 ∧ r.access = .ro
    | .timeMsLo => r.offset = 0x008 ∧ r.access = .rw
    | .timeMsHi => r.offset = 0x00C ∧ r.access = .rw
    | .period => r.offset = 0x010 ∧ r.access = .rw
    | .secretLen => r.offset = 0x014 ∧ r.access = .rw
    | .keyLen => r.offset = 0x018 ∧ r.access = .ro
    | .remaining => r.offset = 0x01C ∧ r.access = .ro
    | .msg j => r.offset = 0x020 + 4 * j.val ∧ r.access = .rw
    | .binary => r.offset = 0x028 ∧ r.access = .ro
    | .code => r.offset = 0x02C ∧ r.access = .ro
    | .codeStr j => r.offset = 0x030 + 4 * j.val ∧ r.access = .ro
    | .digest j => r.offset = 0x040 + 4 * j.val ∧ r.access = .rw
    | .key j => r.offset = 0x080 + 4 * j.val ∧ r.access = .ro
    | .secret j => r.offset = 0x100 + 4 * j.val ∧ r.access = .rw)

/-- R48: a misaligned access, one of another width than 4 bytes, one outside the window and one at an undefined offset answer
`error` and change no state, whether or not BUSY is 1. -/
def Obligations.RefusedAccessAnswersErrorAndChangesNothing : Prop :=
  ∀ (s : State) (off bytes : Nat) (v : Word),
    (off % 4 ≠ 0 ∨ bytes ≠ 4 ∨ 0x1FF < off ∨ off = 0x038 ∨ off = 0x03C ∨ (0x054 ≤ off ∧ off ≤ 0x07C) ∨
      (0x0D0 ≤ off ∧ off ≤ 0x0FC) ∨ (0x180 ≤ off ∧ off ≤ 0x1FC)) →
    hostRead off bytes s = { s with answers := s.answers ++ [.error] } ∧
    hostWrite off bytes v s = { s with answers := s.answers ++ [.error] }

/-- R46: a host read with BUSY = 0 answers the word contents of the register (0 for CMD) and changes no state. The contents
are those of the table of R42. -/
def Obligations.IdleReadAnswersTheContents : Prop :=
  ∀ s : State, s.status.busy = false →
    (∀ r : Reg, hostRead r.offset 4 s = { s with answers := s.answers ++ [.okWord (readReg s r)] }) ∧
    readReg s .cmd = 0 ∧ readReg s .status = s.status.word ∧
    s.status.word.getLsbD 3 = false ∧ s.status.word.extractLsb' 8 24 = 0 ∧
    (readReg s .timeMsLo).toNat = s.timeMs.toNat % 2 ^ 32 ∧ (readReg s .timeMsHi).toNat = s.timeMs.toNat / 2 ^ 32 ∧
    readReg s .period = s.period ∧ readReg s .secretLen = s.secretLen ∧ readReg s .keyLen = s.keyLen ∧
    readReg s .remaining = s.remaining ∧ readReg s .binary = s.binary ∧ readReg s .code = s.code ∧
    (∀ j, readReg s (.msg j) = joinBytes (byteAt s.msg (4 * j.val)) (byteAt s.msg (4 * j.val + 1))
      (byteAt s.msg (4 * j.val + 2)) (byteAt s.msg (4 * j.val + 3))) ∧
    readReg s (.codeStr 0) = joinBytes (byteAt s.codeStr 0) (byteAt s.codeStr 1) (byteAt s.codeStr 2) (byteAt s.codeStr 3) ∧
    readReg s (.codeStr 1) = joinBytes (byteAt s.codeStr 4) (byteAt s.codeStr 5) 0 0 ∧
    (∀ j, readReg s (.digest j) = joinBytes (byteAt s.digest (4 * j.val)) (byteAt s.digest (4 * j.val + 1))
      (byteAt s.digest (4 * j.val + 2)) (byteAt s.digest (4 * j.val + 3))) ∧
    (∀ j, readReg s (.secret j) = joinBytes (byteAt s.secret (4 * j.val)) (byteAt s.secret (4 * j.val + 1))
      (byteAt s.secret (4 * j.val + 2)) (byteAt s.secret (4 * j.val + 3))) ∧
    (∀ j, readReg s (.key j) = joinBytes (byteAt s.key (4 * j.val)) (byteAt s.key (4 * j.val + 1))
      (byteAt s.key (4 * j.val + 2)) (byteAt s.key (4 * j.val + 3)))

/-- The layout of STATUS (R13): BUSY, DONE, FAULT in bits 0, 1, 2, FCODE in bits 7:4, bit 3 and bits 31:8 zero. -/
def Obligations.StatusWordHasTheBitsOfTheTable : Prop :=
  ∀ f : Status, f.word.getLsbD 0 = f.busy ∧ f.word.getLsbD 1 = f.done ∧ f.word.getLsbD 2 = f.fault ∧
    f.word.getLsbD 3 = false ∧ f.word.extractLsb' 4 4 = f.fcode ∧ f.word.extractLsb' 8 24 = 0

/-- R47: with BUSY = 0 an RW register takes the value written, all 32 bits, and no other register changes its contents; a
write to an RO register is discarded; a write to CMD is the acceptance of R63. The answer is `ok` each time. -/
def Obligations.IdleWriteStoresOrIsDiscarded : Prop :=
  ∀ (s : State) (r : Reg) (v : Word), s.status.busy = false →
    (r.access = .rw → ∃ t, hostWrite r.offset 4 v s = { t with answers := s.answers ++ [.ok] } ∧ readReg t r = v ∧
      (∀ r', r' ≠ r → readReg t r' = readReg s r') ∧ t.status = s.status ∧ t.curCmd = s.curCmd ∧
      t.scratch = s.scratch ∧ t.schedule = s.schedule ∧ t.answers = s.answers ∧ t.freeReads = s.freeReads) ∧
    (r.access = .ro → hostWrite r.offset 4 v s = { s with answers := s.answers ++ [.ok] }) ∧
    (r.access = .wo → r = .cmd ∧ hostWrite r.offset 4 v s = { acceptCommand v s with answers := s.answers ++ [.ok] })

/-- R49: while BUSY = 1, STATUS reads as it is; a read of any other defined register answers the next free value, whatever it
is; a write to any defined register is discarded with answer `ok`. -/
def Obligations.BusyAccessesAreUnspecifiedOrDiscarded : Prop :=
  ∀ (s : State) (r : Reg) (v : Word), s.status.busy = true →
    hostRead 0x004 4 s = { s with answers := s.answers ++ [.okWord s.status.word] } ∧
    (r ≠ .status → hostRead r.offset 4 s =
      { s with answers := s.answers ++ [.okWord (Config.busyReadWord s.freeReads)], freeReads := s.freeReads + 1 }) ∧
    hostWrite r.offset 4 v s = { s with answers := s.answers ++ [.ok] }

/-- R43 for a write to any byte buffer: `B[4j] <- v[31:24]`, `B[4j+1] <- v[23:16]`, `B[4j+2] <- v[15:8]`,
`B[4j+3] <- v[7:0]`, and no other byte changes. -/
def Obligations.BufferWordIsMostSignificantByteFirst : Prop :=
  ∀ (n : Nat) (b : Vector Byte n) (j : Nat) (v : Word), 4 * j + 3 < n →
    byteAt (setWord b j v) (4 * j) = v.extractLsb' 24 8 ∧ byteAt (setWord b j v) (4 * j + 1) = v.extractLsb' 16 8 ∧
    byteAt (setWord b j v) (4 * j + 2) = v.extractLsb' 8 8 ∧ byteAt (setWord b j v) (4 * j + 3) = v.extractLsb' 0 8 ∧
    (∀ i, (i < 4 * j ∨ 4 * j + 3 < i) → byteAt (setWord b j v) i = byteAt b i) ∧
    wordAt (setWord b j v) j = v

/-- R44: TIME_MS[31:0] is at 0x008 and TIME_MS[63:32] at 0x00C; each half is read and written alone, and the two in either
order give the whole. -/
def Obligations.TimeIsWrittenInTwoHalves : Prop :=
  Reg.timeMsLo.offset = 0x008 ∧ Reg.timeMsHi.offset = 0x00C ∧
  ∀ (s : State) (lo hi : Word),
    (readReg s .timeMsLo).toNat = s.timeMs.toNat % 2 ^ 32 ∧ (readReg s .timeMsHi).toNat = s.timeMs.toNat / 2 ^ 32 ∧
    (writeReg .timeMsLo lo s).timeMs.toNat = s.timeMs.toNat / 2 ^ 32 * 2 ^ 32 + lo.toNat ∧
    (writeReg .timeMsHi hi s).timeMs.toNat = hi.toNat * 2 ^ 32 + s.timeMs.toNat % 2 ^ 32 ∧
    (writeReg .timeMsHi hi (writeReg .timeMsLo lo s)).timeMs.toNat = hi.toNat * 2 ^ 32 + lo.toNat ∧
    writeReg .timeMsLo lo (writeReg .timeMsHi hi s) = writeReg .timeMsHi hi (writeReg .timeMsLo lo s)

/-- `SECRETSTR` (spec/30_encoding.md R68): after the word writes and the length write, an idle block holds exactly that text as
its Secret, zero filler up to the end of the last word written, no byte of SECRET changed after it and no other register
changed (R22, R228). -/
def Obligations.SecretStringLoadsTheSecret : Prop :=
  ∀ (s : State) (text : List Byte) (rest : List Turn), s.status.busy = false → text.length ≤ 128 →
    s.schedule = Script.secretStr text ++ rest →
    ∃ t : State, Host.Core.run core (Script.secretStr text).length s = .next t ∧ secretText t = text ∧
      t = { s with secret := t.secret, secretLen := BitVec.ofNat 32 text.length, schedule := rest,
                   answers := s.answers ++ List.replicate (Script.secretStr text).length .ok } ∧
      (∀ i, text.length ≤ i → i < 4 * ((text.length + 3) / 4) → byteAt t.secret i = 0) ∧
      ∀ i, 4 * ((text.length + 3) / 4) ≤ i → byteAt t.secret i = byteAt s.secret i

/-! ## Base32 and DECODE (spec/40_base32_decode.md) -/

/-- The complete classification of the 256 byte values, and that a stripped byte has no effect wherever it stands (R81). -/
def Obligations.CharacterClassesOfTheTable : Prop :=
  (∀ (s t : List Byte) (c : Byte), b32value c = none → b32decode (s ++ c :: t) = b32decode (s ++ t)) ∧
  ∀ c : Byte,
    (c.toNat ≤ 0x31 → b32value c = none) ∧
    (0x32 ≤ c.toNat ∧ c.toNat ≤ 0x37 → b32value c = some (BitVec.ofNat 5 (c.toNat - 0x32 + 26))) ∧
    (0x38 ≤ c.toNat ∧ c.toNat ≤ 0x40 → b32value c = none) ∧
    (0x41 ≤ c.toNat ∧ c.toNat ≤ 0x5A → b32value c = some (BitVec.ofNat 5 (c.toNat - 0x41))) ∧
    (0x5B ≤ c.toNat ∧ c.toNat ≤ 0x60 → b32value c = none) ∧
    (0x61 ≤ c.toNat ∧ c.toNat ≤ 0x7A → b32value c = some (BitVec.ofNat 5 (c.toNat - 0x61))) ∧
    (0x7B ≤ c.toNat → b32value c = none)

/-- The accumulator machine of R82 is the source's wording: concatenate the 5-bit groups into one bitstream, regroup it into
bytes, discard what does not complete a byte. -/
def Obligations.AccumulatorDecodesTheBitstream : Prop :=
  ∀ text : List Byte, b32decode text = regroup ((b32values text).flatMap fiveBits)

/-- Length (R83): floor(5m / 8) bytes for m valid characters; with R84, at most 80 for a text of at most 128 bytes; nothing for
at most one valid character. -/
def Obligations.DecodedLengthIsFiveEighths : Prop :=
  ∀ text : List Byte,
    (b32decode text).length = 5 * (text.filter b32valid).length / 8 ∧
    (text.length ≤ 128 → (b32decode text).length ≤ 80) ∧
    ((text.filter b32valid).length ≤ 1 → b32decode text = [])

/-- Tolerance (R83): a text decodes as its cleaned upper-case form, and an invalid byte anywhere makes no difference. -/
def Obligations.DecodingIgnoresCaseAndInvalidBytes : Prop :=
  (∀ text : List Byte, b32decode text = b32decode (cleanText text)) ∧
  (∀ (s t : List Byte) (c : Byte), b32valid c = false → b32decode (s ++ c :: t) = b32decode (s ++ t))

/-- Prefix monotonicity (R83): emitted bytes never change. -/
def Obligations.DecodingExtendsWithTheText : Prop :=
  ∀ s t : List Byte, b32decode s <+: b32decode (s ++ t)

/-- DECODE (R85): LEN_RANGE exactly when SECRET_LEN > 128, and then only STATUS changes; otherwise KEY is the decoding of
SECRET[0 .. SECRET_LEN-1] with zeros after it, KEYLEN its length, and nothing else but STATUS changes. -/
def Obligations.DecodeWritesTheKey : Prop :=
  ∀ s : State,
    (128 < s.secretLen.toNat → ∃ sc : Scratch, exec .decode s =
      .next { s with status := { busy := false, done := false, fault := true, fcode := 2 }, scratch := sc }) ∧
    (s.secretLen.toNat ≤ 128 → ∃ (key : Vector Byte 80) (len : Word) (sc : Scratch), exec .decode s =
      .next { s with key := key, keyLen := len, status := { s.status with busy := false, done := true },
                     scratch := sc } ∧
      len.toNat = (b32decode (s.secret.toList.take s.secretLen.toNat)).length ∧
      ∀ j, j < 80 → byteAt key j = (b32decode (s.secret.toList.take s.secretLen.toNat)).getD j 0)

/-! ## Counter and remaining time (spec/41_counter_time.md) -/

/-- COUNTER (R103): Fault(3) exactly when PERIOD = 0; otherwise Fault(4) exactly when TIME_MS >= 2^32 * 1000 * PERIOD; on a
fault only STATUS changes; otherwise MSG is four zero bytes and the bytes of c = TIME_MS div (1000 * PERIOD), most
significant first (R102), and nothing else but STATUS changes. -/
def Obligations.CounterWritesTheCounterBytes : Prop :=
  ∀ s : State,
    (s.period.toNat = 0 → ∃ sc : Scratch, exec .counter s =
      .next { s with status := { busy := false, done := false, fault := true, fcode := 3 }, scratch := sc }) ∧
    (s.period.toNat ≠ 0 → 2 ^ 32 * 1000 * s.period.toNat ≤ s.timeMs.toNat → ∃ sc : Scratch, exec .counter s =
      .next { s with status := { busy := false, done := false, fault := true, fcode := 4 }, scratch := sc }) ∧
    (s.period.toNat ≠ 0 → s.timeMs.toNat < 2 ^ 32 * 1000 * s.period.toNat →
      ∃ (c : Word) (msg : Vector Byte 8) (sc : Scratch), exec .counter s =
        .next { s with msg := msg, status := { s.status with busy := false, done := true }, scratch := sc } ∧
        c.toNat = s.timeMs.toNat / (1000 * s.period.toNat) ∧ wordAt msg 0 = 0 ∧ wordAt msg 1 = c ∧
        msg.toList = [0, 0, 0, 0, c.extractLsb' 24 8, c.extractLsb' 16 8, c.extractLsb' 8 8, c.extractLsb' 0 8])

/-- With PERIOD >= 4,294,968 no TIME_MS can fault (R103, corner cases): COUNTER completes. -/
def Obligations.LongPeriodsNeverOverflowTheCounter : Prop :=
  ∀ s : State, 4294968 ≤ s.period.toNat →
    ∃ t, exec .counter s = .next t ∧ t.status = { s.status with busy := false, done := true }

/-- R104: times in one window of 30 s have one counter, and the counter increases by exactly 1 when the time passes a multiple
of 30000 ms and stays otherwise. -/
def Obligations.CounterStepsAtWindowBoundaries : Prop :=
  (∀ t₁ t₂, t₁ / 30000 = t₂ / 30000 → counterOf t₁ 30 = counterOf t₂ 30) ∧
  (∀ t, (t + 1) % 30000 = 0 → counterOf (t + 1) 30 = counterOf t 30 + 1) ∧
  (∀ t, (t + 1) % 30000 ≠ 0 → counterOf (t + 1) 30 = counterOf t 30) ∧
  counterOf 29999 30 = 0 ∧ counterOf 30000 30 = 1

/-- REMAIN (R106): Fault(3) exactly when PERIOD = 0, and then only STATUS changes; otherwise REMAINING is
PERIOD - ((TIME_MS div 1000) mod PERIOD), and nothing else but STATUS changes. -/
def Obligations.RemainWritesTheSecondsLeft : Prop :=
  ∀ s : State,
    (s.period.toNat = 0 → ∃ sc : Scratch, exec .remain s =
      .next { s with status := { busy := false, done := false, fault := true, fcode := 3 }, scratch := sc }) ∧
    (s.period.toNat ≠ 0 → ∃ (r : Word) (sc : Scratch), exec .remain s =
      .next { s with remaining := r, status := { s.status with busy := false, done := true }, scratch := sc } ∧
      r.toNat = s.period.toNat - s.timeMs.toNat / 1000 % s.period.toNat)

/-- R107: for every time and every period p >= 1 the remaining time is in 1 to p; it is p exactly when the whole seconds are a
multiple of p; it is never 0. -/
def Obligations.RemainingTimeIsOneToPeriod : Prop :=
  ∀ t p : Nat, 1 ≤ p →
    1 ≤ remainingOf t p ∧ remainingOf t p ≤ p ∧ (remainingOf t p = p ↔ t / 1000 % p = 0) ∧ remainingOf t p ≠ 0

/-- R108: the whole seconds are counter * p + (p - remaining); and for p >= 2 the counter changes from one millisecond to the
next exactly where the remaining time jumps from 1 back to p. (For p = 1 the remaining time is always 1: no jump shows.) -/
def Obligations.CounterChangesWhereRemainingTimeJumps : Prop :=
  (∀ t p : Nat, 1 ≤ p → t / 1000 = counterOf t p * p + (p - remainingOf t p)) ∧
  (∀ t p : Nat, 2 ≤ p →
    (counterOf (t + 1) p ≠ counterOf t p ↔ remainingOf t p = 1 ∧ remainingOf (t + 1) p = p))

/-! ## SHA-1 and HMAC (spec/42_hmac_sha1.md) -/

/-- R123: `pad(M)` is M, 0x80, z zero bytes and the length in bits in 8 bytes; z is the least count that makes the length a
multiple of 64, so the length is 64 * N with N = (L + 8) div 64 + 1; the blocks are 64 bytes each and join to `pad(M)`. -/
def Obligations.PaddingFillsWholeBlocks : Prop :=
  ∀ m : List Byte,
    (∃ z, sha1Pad m = m ++ [0x80] ++ List.replicate z 0 ++ bytesBe (8 * m.length) 8 ∧ z < 64 ∧
      (m.length + 1 + z + 8) % 64 = 0) ∧
    (sha1Pad m).length = 64 * ((m.length + 8) / 64 + 1) ∧ (sha1Blocks m).length = (m.length + 8) / 64 + 1 ∧
    (sha1Blocks m).flatten = sha1Pad m ∧ ∀ b ∈ sha1Blocks m, b.length = 64

/-- R124: the 80 words of the message schedule. -/
def Obligations.MessageScheduleRecurrence : Prop :=
  ∀ b : List Byte, (sha1Schedule b).length = 80 ∧
    (∀ t, t ≤ 15 → (sha1Schedule b).getD t 0 = be32 b (4 * t)) ∧
    (∀ t, 16 ≤ t → t ≤ 79 → (sha1Schedule b).getD t 0 =
      rotl32 ((sha1Schedule b).getD (t - 3) 0 ^^^ (sha1Schedule b).getD (t - 8) 0 ^^^
        (sha1Schedule b).getD (t - 14) 0 ^^^ (sha1Schedule b).getD (t - 16) 0) 1)

/-- R125: the round functions, bit by bit: choose for t = 0 to 19, majority for t = 40 to 59, parity for the others up to 79. -/
def Obligations.RoundFunctionsChooseParityMajority : Prop :=
  ∀ (t : Nat) (x y z : Word) (i : Nat), i < 32 →
    (t ≤ 19 → (sha1F t x y z).getLsbD i = if x.getLsbD i then y.getLsbD i else z.getLsbD i) ∧
    (40 ≤ t → t ≤ 59 → ((sha1F t x y z).getLsbD i = true ↔
      2 ≤ (x.getLsbD i).toNat + (y.getLsbD i).toNat + (z.getLsbD i).toNat)) ∧
    ((20 ≤ t ∧ t ≤ 39) ∨ (60 ≤ t ∧ t ≤ 79) → ((sha1F t x y z).getLsbD i = true ↔
      ((x.getLsbD i).toNat + (y.getLsbD i).toNat + (z.getLsbD i).toNat) % 2 = 1))

/-- R126: one compression is 80 rounds from the chaining value, each a simultaneous shift of the working variables with the
schedule's word of that round, and a last addition word by word. -/
def Obligations.CompressionIsEightyRounds : Prop :=
  ∀ (h : Chain) (block : List Byte), ∃ v : Nat → Chain, v 0 = h ∧
    (∀ t, t < 80 →
      (v (t + 1)).a = rotl32 (v t).a 5 + sha1F t (v t).b (v t).c (v t).d + (v t).e + sha1K t +
        (sha1Schedule block).getD t 0 ∧
      (v (t + 1)).b = (v t).a ∧ (v (t + 1)).c = rotl32 (v t).b 30 ∧ (v (t + 1)).d = (v t).c ∧
      (v (t + 1)).e = (v t).d) ∧
    compress h block =
      { a := h.a + (v 80).a, b := h.b + (v 80).b, c := h.c + (v 80).c, d := h.d + (v 80).d, e := h.e + (v 80).e }

/-- R129: HMAC from SHA-1 with k0, ipad and opad; k0 has 64 bytes for every key; a key of more than 64 bytes acts as its hash,
and a zero byte added to a shorter key makes no difference. -/
def Obligations.HmacPadsOrHashesTheKey : Prop :=
  ∀ key msg : List Byte,
    (hmacKey0 key).length = 64 ∧
    (64 < key.length → hmacKey0 key = sha1 key ++ List.replicate 44 0 ∧ hmacSha1 key msg = hmacSha1 (sha1 key) msg) ∧
    (key.length ≤ 64 → hmacKey0 key = key ++ List.replicate (64 - key.length) 0) ∧
    (key.length < 64 → hmacSha1 (key ++ [0]) msg = hmacSha1 key msg) ∧
    hmacSha1 key msg = sha1 ((hmacKey0 key).map (· ^^^ 0x5C) ++ sha1 ((hmacKey0 key).map (· ^^^ 0x36) ++ msg)) ∧
    (hmacSha1 key msg).length = 20

/-- HMAC (R130): DIGEST is HMAC-SHA1 of MSG under KEY[0 .. KEYLEN-1], for every key length, 0 included; nothing else but STATUS
changes, and there is no fault. -/
def Obligations.HmacWritesTheDigest : Prop :=
  ∀ s : State, ∃ (digest : Vector Byte 20) (sc : Scratch), exec .hmac s =
      .next { s with digest := digest, status := { s.status with busy := false, done := true }, scratch := sc } ∧
    digest.toList = hmacSha1 (s.key.toList.take s.keyLen.toNat) s.msg.toList

/-! ## Truncation (spec/43_truncation.md) -/

/-- R150, R151: the offset is the low nibble of byte 19, so the four bytes lie in bytes 0 to 18; BINARY is those bytes
big-endian with the top bit dropped. -/
def Obligations.TruncationTakesThirtyOneBits : Prop :=
  ∀ d : List Byte, dtOffset d = (d.getD 19 0).toNat % 16 ∧ dtOffset d ≤ 15 ∧ dtOffset d + 3 ≤ 18 ∧
    dtBinary d = be32 d (dtOffset d) &&& 0x7FFFFFFF ∧
    (dtBinary d).toNat = (d.getD (dtOffset d) 0).toNat % 128 * 2 ^ 24 + (d.getD (dtOffset d + 1) 0).toNat * 2 ^ 16 +
      (d.getD (dtOffset d + 2) 0).toNat * 2 ^ 8 + (d.getD (dtOffset d + 3) 0).toNat ∧
    (dtBinary d).toNat < 2 ^ 31

/-- R153: for n < 10^6 the code string is six ASCII digits whose decimal value is n, most significant first. -/
def Obligations.CodeStringIsSixDigitsOfTheCode : Prop :=
  ∀ n : Nat, n < 1000000 → (codeStrOf n).length = 6 ∧ (codeStrOf n).all isDigit = true ∧
    decimalValue (codeStrOf n) = n ∧
    (∀ i, i < 6 → ((codeStrOf n).getD i 0).toNat = 0x30 + n / 10 ^ (5 - i) % 10)

/-- TRUNC (R154): BINARY, CODE and CODE_STR from DIGEST; nothing else but STATUS changes, and there is no fault. -/
def Obligations.TruncWritesTheCode : Prop :=
  ∀ s : State, ∃ (b n : Word) (str : Vector Byte 6) (sc : Scratch), exec .trunc s =
      .next { s with binary := b, code := n, codeStr := str, status := { s.status with busy := false, done := true },
                     scratch := sc } ∧
    b = be32 s.digest.toList ((byteAt s.digest 19).toNat % 16) &&& 0x7FFFFFFF ∧
    n.toNat = b.toNat % 1000000 ∧ str.toList = codeStrOf n.toNat

/-- R155: after a TRUNC or GENERATE that completed without fault, BINARY < 2^31, CODE = BINARY mod 10^6, CODE_STR is CODE's
text, and BINARY is the truncation of the DIGEST at that completion. -/
def Obligations.CodeRegistersAreConsistent : Prop :=
  ∀ (i : Instr) (s t : State), (i = .trunc ∨ i = .generate) → exec i s = .next t → t.status.done = true →
    t.binary.toNat < 2 ^ 31 ∧ t.code.toNat = t.binary.toNat % 1000000 ∧ t.codeStr.toList = codeStrOf t.code.toNat ∧
    t.binary = be32 t.digest.toList ((byteAt t.digest 19).toNat % 16) &&& 0x7FFFFFFF

/-! ## GENERATE (spec/44_generate.md) -/

/-- GENERATE (R165): LEN_RANGE when SECRET_LEN > 128, otherwise COUNTER_RANGE exactly when TIME_MS >= 2^32 * 30000, and then
only STATUS changes; otherwise every stage's result is in its register, with the period 30 whatever PERIOD holds, and nothing
else but STATUS changes. -/
def Obligations.GenerateWritesEveryStage : Prop :=
  ∀ s : State,
    (128 < s.secretLen.toNat → ∃ sc : Scratch, exec .generate s =
      .next { s with status := { busy := false, done := false, fault := true, fcode := 2 }, scratch := sc }) ∧
    (s.secretLen.toNat ≤ 128 → 2 ^ 32 * 30000 ≤ s.timeMs.toNat → ∃ sc : Scratch, exec .generate s =
      .next { s with status := { busy := false, done := false, fault := true, fcode := 4 }, scratch := sc }) ∧
    (s.secretLen.toNat ≤ 128 → s.timeMs.toNat < 2 ^ 32 * 30000 →
      ∃ (k d : List Byte) (c b : Word) (sc : Scratch), exec .generate s =
        .next { s with key := bufOf 80 k, keyLen := BitVec.ofNat 32 k.length, msg := bufOf 8 (counterBytes c.toNat),
                       digest := bufOf 20 d, binary := b, code := BitVec.ofNat 32 (b.toNat % 1000000),
                       codeStr := bufOf 6 (codeStrOf (b.toNat % 1000000)),
                       status := { s.status with busy := false, done := true }, scratch := sc } ∧
        k = b32decode (s.secret.toList.take s.secretLen.toNat) ∧ c.toNat = s.timeMs.toNat / 30000 ∧
        d = hmacSha1 k (counterBytes c.toNat) ∧ b = be32 d ((d.getD 19 0).toNat % 16) &&& 0x7FFFFFFF)

/-- R166: from one idle state with SECRET_LEN <= 128, PERIOD = 30 and TIME_MS < 2^32 * 30000, the commands DECODE, COUNTER,
HMAC, TRUNC issued through CMD one after the other leave KEY, KEYLEN, MSG, DIGEST, BINARY, CODE and CODE_STR as one GENERATE
does. -/
def Obligations.GenerateIsTheCompositionOfTheStages : Prop :=
  ∀ s : State, s.status.busy = false → s.status.fault = false → s.secretLen.toNat ≤ 128 → s.period = 30 →
    s.timeMs.toNat < 2 ^ 32 * 30000 →
    ∃ a b : State,
      Host.Core.run core 8 { s with schedule := [.write 0 4 1, .engine, .write 0 4 2, .engine, .write 0 4 3, .engine,
        .write 0 4 4, .engine] } = .next a ∧
      Host.Core.run core 2 { s with schedule := [.write 0 4 5, .engine] } = .next b ∧
      a.key = b.key ∧ a.keyLen = b.keyLen ∧ a.msg = b.msg ∧ a.digest = b.digest ∧ a.binary = b.binary ∧
      a.code = b.code ∧ a.codeStr = b.codeStr ∧ a.status = b.status ∧ a.remaining = b.remaining

/-- R167: for every content of SECRET with SECRET_LEN <= 128 and every TIME_MS < 2^32 * 30000, GENERATE from a state without a
recorded fault completes with DONE = 1 and FAULT = 0 and CODE_STR holds six ASCII digits. -/
def Obligations.GenerateNeverFailsOnContent : Prop :=
  ∀ s : State, s.status.fault = false → s.secretLen.toNat ≤ 128 → s.timeMs.toNat < 2 ^ 32 * 30000 →
    ∃ t, exec .generate s = .next t ∧ t.status.done = true ∧ t.status.fault = false ∧ t.status.busy = false ∧
      t.codeStr.toList.all isDigit = true

/-- R168: the values GENERATE writes depend on the decoding of the Secret and on TIME_MS div 30000 alone: two states that agree
on those, whatever else they hold, get the same KEY, KEYLEN, MSG, DIGEST, BINARY, CODE and CODE_STR. -/
def Obligations.GenerateDependsOnSecretAndWindowAlone : Prop :=
  ∀ s₁ s₂ t₁ t₂ : State,
    s₁.secretLen.toNat ≤ 128 → s₂.secretLen.toNat ≤ 128 →
    s₁.timeMs.toNat < 2 ^ 32 * 30000 → s₂.timeMs.toNat < 2 ^ 32 * 30000 →
    b32decode (secretText s₁) = b32decode (secretText s₂) → s₁.timeMs.toNat / 30000 = s₂.timeMs.toNat / 30000 →
    exec .generate s₁ = .next t₁ → exec .generate s₂ = .next t₂ →
    t₁.key = t₂.key ∧ t₁.keyLen = t₂.keyLen ∧ t₁.msg = t₂.msg ∧ t₁.digest = t₂.digest ∧ t₁.binary = t₂.binary ∧
      t₁.code = t₂.code ∧ t₁.codeStr = t₂.codeStr

/-! ## WIPE and reset (spec/45_system_wipe.md, spec/70_reset_and_hazards.md, spec/10_state.md) -/

/-- WIPE (R180): every register, CUR_CMD and the scratch take their reset values, STATUS is 0 (so DONE = 0), and there is no
fault. The turns to come, the answers given and the free value's counter are the model's own and stay (log 6). -/
def Obligations.WipeClearsEveryRegister : Prop :=
  ∀ s : State, exec .wipe s =
    .next { status := { busy := false, done := false, fault := false, fcode := 0 }, curCmd := 0, timeMs := 0, period := 30,
            secretLen := 0, keyLen := 0, remaining := 0, binary := 0, code := 0, secret := Vector.replicate 128 0,
            key := Vector.replicate 80 0, msg := Vector.replicate 8 0, digest := Vector.replicate 20 0,
            codeStr := Vector.replicate 6 0, scratch := .cleared, schedule := s.schedule, answers := s.answers,
            freeReads := s.freeReads }

/-- R181: after WIPE nothing depends on what the block held before it: whatever the two blocks held, with the same turns to
come, the same answers so far and the same count of free reads, every later run is the same. -/
def Obligations.WipeForgetsEverything : Prop :=
  ∀ s₁ s₂ t₁ t₂ : State, s₁.schedule = s₂.schedule → s₁.answers = s₂.answers → s₁.freeReads = s₂.freeReads →
    exec .wipe s₁ = .next t₁ → exec .wipe s₂ = .next t₂ →
    ∀ k, Host.Core.run core k t₁ = Host.Core.run core k t₂

/-- R220: a reset turn, at any point and with a command in flight too, leaves every register at the value of R30, and the
command's completion step never happens: the engine's next turn does nothing. -/
def Obligations.ResetClearsEveryRegisterAndAbortsTheCommand : Prop :=
  ∀ (s : State) (rest : List Turn), s.schedule = .reset :: rest →
    step s = .next { State.reset with schedule := rest, answers := s.answers, freeReads := s.freeReads } ∧
    ∀ rest', rest = .engine :: rest' →
      Host.Core.run core 2 s =
        .next { State.reset with schedule := rest', answers := s.answers, freeReads := s.freeReads }

/-- R30: the reset value of every register, after a reset turn and after the completion of WIPE. -/
def Obligations.ResetAndWipeLeaveTheResetValues : Prop :=
  (∀ (s : State) (rest : List Turn), s.schedule = .reset :: rest →
    step s = .next { State.reset with schedule := rest, answers := s.answers, freeReads := s.freeReads }) ∧
  (∀ s : State, exec .wipe s =
    .next { State.reset with schedule := s.schedule, answers := s.answers, freeReads := s.freeReads }) ∧
  State.reset.status.word = 0 ∧ State.reset.status = { busy := false, done := false, fault := false, fcode := 0 } ∧
  State.reset.timeMs = 0 ∧ State.reset.period = 30 ∧ State.reset.secretLen = 0 ∧ State.reset.keyLen = 0 ∧
  State.reset.remaining = 0 ∧ State.reset.binary = 0 ∧ State.reset.code = 0 ∧ State.reset.curCmd = 0 ∧
  State.reset.scratch = .cleared ∧ State.reset.msg.toList = List.replicate 8 0 ∧
  State.reset.codeStr.toList = List.replicate 6 0 ∧ State.reset.digest.toList = List.replicate 20 0 ∧
  State.reset.key.toList = List.replicate 80 0 ∧ State.reset.secret.toList = List.replicate 128 0

/-! ## Faults (spec/60_exceptions.md) -/

/-- R190, R193, R194, R195: each command faults exactly on its causes, the first of several in the order of R195, an illegal
word on BAD_CMD; a fault writes STATUS as R193 says and no other register; without a cause a command records no fault. -/
def Obligations.CommandsFaultExactlyOnTheirCauses : Prop :=
  (∀ (s : State), (∀ i, s.curCmd ≠ encode i) → ∃ sc : Scratch, complete s =
    .next { s with status := { busy := false, done := false, fault := true, fcode := 1 }, scratch := sc }) ∧
  ∀ (i : Instr) (s : State),
    match faultOf i s with
    | some c => ∃ sc : Scratch, exec i s =
        .next { s with status := { busy := false, done := false, fault := true, fcode := c.bits }, scratch := sc }
    | none => ∃ t, exec i s = .next t ∧
        (i = .wipe → t.status = Status.reset) ∧ (i ≠ .wipe → t.status = { s.status with busy := false, done := true })

/-- R196, R197: once a fault is recorded, every step keeps FAULT and FCODE, unless it is a reset turn or the completion of
WIPE, which leave every register at its reset value. The premise is the invariant of R13. -/
def Obligations.FaultStaysUntilWipeOrReset : Prop :=
  ∀ s t : State, s.Inv → s.status.fault = true → step s = .next t →
    (t.status.fault = true ∧ t.status.fcode = s.status.fcode ∧ t.status.done = false) ∨
    (t = { State.reset with schedule := t.schedule, answers := t.answers, freeReads := t.freeReads } ∧
      ClearsTheBlock s)

/-- R197: with FAULT = 1 and BUSY = 0, reads answer the preserved contents; a write to an RW register answers `ok`, stores all
32 bits and changes no other register, as R47 says; every word but 0x00000007 written to CMD is discarded, and 0x00000007 is
accepted. -/
def Obligations.FaultedBlockAnswersAndTakesOnlyWipe : Prop :=
  ∀ (s : State) (w : Word), s.status.busy = false → s.status.fault = true →
    (∀ r : Reg, hostRead r.offset 4 s = { s with answers := s.answers ++ [.okWord (readReg s r)] }) ∧
    (∀ r : Reg, r.access = .rw → ∃ t, hostWrite r.offset 4 w s = { t with answers := s.answers ++ [.ok] } ∧
      readReg t r = w ∧ (∀ r', r' ≠ r → readReg t r' = readReg s r') ∧ t.status = s.status ∧ t.curCmd = s.curCmd ∧
      t.scratch = s.scratch ∧ t.schedule = s.schedule ∧ t.answers = s.answers ∧ t.freeReads = s.freeReads) ∧
    (∀ r : Reg, r.access = .ro → hostWrite r.offset 4 w s = { s with answers := s.answers ++ [.ok] }) ∧
    (w ≠ 0x00000007 → hostWrite 0x000 4 w s = { s with answers := s.answers ++ [.ok] }) ∧
    (w = 0x00000007 → hostWrite 0x000 4 w s =
      { s with curCmd := 7, status := { s.status with busy := true, done := false }, answers := s.answers ++ [.ok] })

/-! ## Frames and invariants -/

/-- What each command leaves alone when it answers a next state: every register but its results (the column "writes" of
spec/30_encoding.md R62), STATUS and the scratch; on a fault too. WIPE writes every register and is stated alone. -/
def Obligations.CommandsWriteOnlyTheirResults : Prop :=
  ∀ s t : State,
    (exec .decode s = .next t →
      t = { s with key := t.key, keyLen := t.keyLen, status := t.status, scratch := t.scratch }) ∧
    (exec .counter s = .next t → t = { s with msg := t.msg, status := t.status, scratch := t.scratch }) ∧
    (exec .hmac s = .next t → t = { s with digest := t.digest, status := t.status, scratch := t.scratch }) ∧
    (exec .trunc s = .next t →
      t = { s with binary := t.binary, code := t.code, codeStr := t.codeStr, status := t.status, scratch := t.scratch }) ∧
    (exec .generate s = .next t →
      t = { s with key := t.key, keyLen := t.keyLen, msg := t.msg, digest := t.digest, binary := t.binary, code := t.code,
                   codeStr := t.codeStr, status := t.status, scratch := t.scratch }) ∧
    (exec .remain s = .next t → t = { s with remaining := t.remaining, status := t.status, scratch := t.scratch })

/-- R11, R10 and R49: an input changes in a step only if the step is a reset turn, the completion of WIPE, or a host write
while BUSY = 0 at that input's own offset: 0x008 for the low half of TIME_MS, 0x00C for its high half, 0x010 for PERIOD, 0x014
for SECRET_LEN, and for a byte of SECRET the word that holds it. -/
def Obligations.InputsChangeOnlyByHostWriteWipeOrReset : Prop :=
  ∀ s t : State, step s = .next t →
    (t.timeMs.toNat % 2 ^ 32 ≠ s.timeMs.toNat % 2 ^ 32 → HostWritesAt 0x008 s ∨ ClearsTheBlock s) ∧
    (t.timeMs.toNat / 2 ^ 32 ≠ s.timeMs.toNat / 2 ^ 32 → HostWritesAt 0x00C s ∨ ClearsTheBlock s) ∧
    (t.period ≠ s.period → HostWritesAt 0x010 s ∨ ClearsTheBlock s) ∧
    (t.secretLen ≠ s.secretLen → HostWritesAt 0x014 s ∨ ClearsTheBlock s) ∧
    (∀ i, byteAt t.secret i ≠ byteAt s.secret i → HostWritesAt (0x100 + 4 * (i / 4)) s ∨ ClearsTheBlock s)

/-- R226 and R10: a result register the host cannot write (KEY, KEYLEN, REMAINING, BINARY, CODE, CODE_STR) changes in a step only
by the engine's completion step or a reset turn: no host transaction recomputes or alters it. -/
def Obligations.ResultsChangeOnlyByCompletionOrReset : Prop :=
  ∀ s t : State, step s = .next t →
    (t.key = s.key ∧ t.keyLen = s.keyLen ∧ t.remaining = s.remaining ∧ t.binary = s.binary ∧ t.code = s.code ∧
      t.codeStr = s.codeStr) ∨
    (s.status.busy = true ∧ (s.schedule = [] ∨ ∃ rest, s.schedule = .engine :: rest)) ∨
    (∃ rest, s.schedule = .reset :: rest)

/-- The relations of R13, R18, R20, R21, R23 and R26 hold after reset. -/
def Obligations.ResetHasTheRegisterRelations : Prop := State.reset.Inv

/-- The relations of R13 (flags), R18 (KEYLEN <= 80), R20 (BINARY < 2^31), R21 (CODE = BINARY mod 10^6), R23 (KEY zero past
KEYLEN) and R26 (CODE_STR is CODE's text, or reset's zeros) are kept by every step from every state that has them. -/
def Obligations.StepKeepsTheRegisterRelations : Prop := ∀ s t : State, s.Inv → step s = .next t → t.Inv

/-- After reset KEY and KEYLEN hold the decoding of a text, the empty one. -/
def Obligations.ResetKeyIsADecodedSecret : Prop := State.reset.KeyDecoded

/-- "A key enters only through the decoder" (R23): a step leaves KEY and KEYLEN alone, or it is a reset turn or the completion
of WIPE, which clear them, or it is the completion of DECODE (word 1) or GENERATE (word 5) with SECRET_LEN <= 128, and then KEY
is the decoding of the Secret of that moment with zeros after it and KEYLEN its length. So a KEY that is the decoding of a
Secret stays one. -/
def Obligations.StepKeepsTheKeyADecodedSecret : Prop :=
  ∀ s t : State, step s = .next t →
    ((t.key = s.key ∧ t.keyLen = s.keyLen) ∨
      (ClearsTheBlock s ∧ t.key = Vector.replicate 80 0 ∧ t.keyLen = 0) ∨
      (s.status.busy = true ∧ EngineHasTheTurn s ∧ (s.curCmd = 0x00000001 ∨ s.curCmd = 0x00000005) ∧
        s.secretLen.toNat ≤ 128 ∧ t.key = bufOf 80 (b32decode (secretText s)) ∧
        t.keyLen.toNat = (b32decode (secretText s)).length)) ∧
    (s.KeyDecoded → t.KeyDecoded)

/-! ## SHA-1 as a whole (spec/42_hmac_sha1.md) -/

/-- R122 and R127: `sha1(M)` starts from the constants H0 to H4, compresses the N blocks of `pad(M)` in order, block i being its
bytes 64i to 64i + 63, and gives the last chaining value as five big-endian words; and the round constants K(t). -/
def Obligations.Sha1CompressesTheBlocksFromTheConstants : Prop :=
  (∀ m : List Byte, ∃ h : Nat → Chain,
    h 0 = { a := 0x67452301, b := 0xEFCDAB89, c := 0x98BADCFE, d := 0x10325476, e := 0xC3D2E1F0 } ∧
    (∀ i, i < (m.length + 8) / 64 + 1 → h (i + 1) = compress (h i) (((sha1Pad m).drop (64 * i)).take 64)) ∧
    sha1 m = (let r := h ((m.length + 8) / 64 + 1)
      [r.a, r.b, r.c, r.d, r.e].flatMap fun w =>
        [w.extractLsb' 24 8, w.extractLsb' 16 8, w.extractLsb' 8 8, w.extractLsb' 0 8])) ∧
  ∀ t, (t ≤ 19 → sha1K t = 0x5A827999) ∧ (20 ≤ t → t ≤ 39 → sha1K t = 0x6ED9EBA1) ∧
    (40 ≤ t → t ≤ 59 → sha1K t = 0x8F1BBCDC) ∧ (60 ≤ t → t ≤ 79 → sha1K t = 0xCA62C1D6)
end

