-- ==== Sys2Proof/Laws/Buffers.lean ====
section
/-! SUPPORT. The laws of byte order and byte buffers (spec/00_scope.md R7, spec/20_memory.md R43). -/

namespace Sys2Proof.Machine

/-- What a buffer filled from a byte sequence holds at each index. -/
@[simp] theorem byteAt_bufOf {n : Nat} (bs : List Byte) (i : Nat) :
    byteAt (bufOf n bs) i = if i < n then bs.getD i 0 else 0 := by
  unfold byteAt bufOf
  by_cases h : i < n <;> simp [Vector.toList_ofFn, List.getD_eq_getElem?_getD, h]

/-- The bytes of a buffer filled from a byte sequence of its own length. -/
theorem toList_bufOf {n : Nat} (bs : List Byte) (h : bs.length = n) : (bufOf n bs).toList = bs := by
  subst h
  simp only [bufOf, Vector.toList_ofFn]
  refine List.ext_getElem (by simp) fun i h1 h2 => ?_
  simp [List.getD_eq_getElem?_getD]

/-- The first bytes of a buffer are those of the byte sequence it was filled from. -/
theorem take_bufOf {n : Nat} (bs : List Byte) (h : bs.length ≤ n) : (bufOf n bs).toList.take bs.length = bs := by
  simp only [bufOf, Vector.toList_ofFn]
  refine List.ext_getElem (by simp [h]) fun i h1 h2 => ?_
  simp [List.getD_eq_getElem?_getD, List.getElem?_eq_getElem h2]

/-- Two buffers with the same byte at every index are equal. -/
theorem buf_ext {n : Nat} (a b : Vector Byte n) (h : ∀ i, i < n → byteAt a i = byteAt b i) : a = b := by
  refine Vector.ext fun i hi => ?_
  have := h i hi
  simpa [byteAt, List.getD_eq_getElem?_getD, hi] using this

/-- What a host write of a word leaves at each byte of a buffer. -/
@[simp] theorem byteAt_setWord {n : Nat} (b : Vector Byte n) (j i : Nat) (v : Word) :
    byteAt (setWord b j v) i = if i < n ∧ i / 4 = j then lane v (i % 4) else byteAt b i := by
  unfold byteAt setWord
  by_cases h : i < n
  · by_cases hj : i / 4 = j <;>
      simp [Vector.toList_ofFn, List.getD_eq_getElem?_getD, h, hj]
  · simp [Vector.toList_ofFn, List.getD_eq_getElem?_getD, h]

/-- The word at `base + 4j`, byte by byte. -/
theorem wordAt_eq {n : Nat} (b : Vector Byte n) (j : Nat) :
    wordAt b j = joinBytes (byteAt b (4 * j)) (byteAt b (4 * j + 1)) (byteAt b (4 * j + 2)) (byteAt b (4 * j + 3)) := rfl

/-- A word is its four lanes. -/
@[simp] theorem joinBytes_lane (v : Word) : joinBytes (lane v 0) (lane v 1) (lane v 2) (lane v 3) = v := by
  unfold joinBytes lane
  apply BitVec.eq_of_getLsbD_eq
  intro i hi
  simp only [BitVec.getLsbD_append, BitVec.getLsbD_extractLsb']
  rcases Nat.lt_or_ge i 8 with h | h
  · simp [h]
  · rcases Nat.lt_or_ge i 16 with h2 | h2
    · simp [show ¬ i < 8 by omega, show i - 8 < 8 by omega, show 8 + (i - 8) = i by omega]
    · rcases Nat.lt_or_ge i 24 with h3 | h3
      · simp [show ¬ i < 8 by omega, show ¬ i - 8 < 8 by omega, show i - 8 - 8 < 8 by omega,
          show 16 + (i - 8 - 8) = i by omega]
      · simp [show ¬ i < 8 by omega, show ¬ i - 8 < 8 by omega, show ¬ i - 8 - 8 < 8 by omega,
          show i - 8 - 8 - 8 < 8 by omega, show 24 + (i - 8 - 8 - 8) = i by omega]

/-- A written word reads back (R43, R47). -/
theorem wordAt_setWord_same {n : Nat} (b : Vector Byte n) (j : Nat) (v : Word) (h : 4 * j + 3 < n) :
    wordAt (setWord b j v) j = v := by
  rw [wordAt_eq]
  simp [show 4 * j < n by omega, show 4 * j + 1 < n by omega, show 4 * j + 2 < n by omega, h,
    show (4 * j + 1) / 4 = j by omega, show (4 * j + 2) / 4 = j by omega, show (4 * j + 3) / 4 = j by omega,
    show (4 * j + 1) % 4 = 1 by omega, show (4 * j + 2) % 4 = 2 by omega, show (4 * j + 3) % 4 = 3 by omega]

/-- A write to one word of a buffer leaves the others alone. -/
theorem wordAt_setWord_other {n : Nat} (b : Vector Byte n) (j k : Nat) (v : Word) (h : k ≠ j) :
    wordAt (setWord b j v) k = wordAt b k := by
  rw [wordAt_eq, wordAt_eq]
  simp [h, show ¬ ((4 * k + 1) / 4 = j) by omega,
    show ¬ ((4 * k + 2) / 4 = j) by omega, show ¬ ((4 * k + 3) / 4 = j) by omega]

/-- A 64-bit value as a number, from its halves. -/
@[simp] theorem toNat_joinWords (hi lo : Word) : (joinWords hi lo).toNat = hi.toNat * 2 ^ 32 + lo.toNat := by
  have h : (joinWords hi lo).toNat = hi.toNat <<< 32 ||| lo.toNat := BitVec.toNat_append hi lo
  rw [h, ← Nat.shiftLeft_add_eq_or_of_lt lo.isLt, Nat.shiftLeft_eq]

@[simp] theorem toNat_lowWord (t : BitVec 64) : (lowWord t).toNat = t.toNat % 2 ^ 32 := by
  simp [lowWord, BitVec.extractLsb'_toNat]

@[simp] theorem toNat_highWord (t : BitVec 64) : (highWord t).toNat = t.toNat / 2 ^ 32 := by
  have := t.isLt
  simp only [highWord, BitVec.extractLsb'_toNat, Nat.shiftRight_eq_div_pow]
  omega

@[simp] theorem lowWord_joinWords (hi lo : Word) : lowWord (joinWords hi lo) = lo := by
  apply BitVec.eq_of_toNat_eq
  have := lo.isLt
  simp
  omega

@[simp] theorem highWord_joinWords (hi lo : Word) : highWord (joinWords hi lo) = hi := by
  apply BitVec.eq_of_toNat_eq
  have := lo.isLt
  simp
  omega

/-- `bytes_be(v, n)` has n bytes. -/
@[simp] theorem length_bytesBe (v n : Nat) : (bytesBe v n).length = n := by simp [bytesBe]

/-- Its bytes, most significant first. -/
theorem getElem_bytesBe (v n i : Nat) (h : i < (bytesBe v n).length) :
    (bytesBe v n)[i] = BitVec.ofNat 8 (v / 256 ^ (n - 1 - i)) := by simp [bytesBe]

end Sys2Proof.Machine
end

