-- ==== Sys2Proof/Laws/Data.lean ====
section
/-! SUPPORT. The laws of the data functions: how many bytes each returns, and the forms in which proofs use them. -/

namespace Sys2Proof.Machine

/-- One valid character of the Base32 loop. -/
theorem b32loop_cons (acc nbits : Nat) (v : BitVec 5) (vs : List (BitVec 5)) :
    b32loop acc nbits (v :: vs) =
      if 3 ≤ nbits then
        BitVec.ofNat 8 ((acc * 32 + v.toNat) / 2 ^ (nbits - 3)) ::
          b32loop ((acc * 32 + v.toNat) % 2 ^ (nbits - 3)) (nbits - 3) vs
      else b32loop (acc * 32 + v.toNat) (nbits + 5) vs := by
  have h : nbits + 5 - 8 = nbits - 3 := by omega
  by_cases h3 : 3 ≤ nbits
  · simp [b32loop, h, h3]
  · simp [b32loop, h3]

@[simp] theorem b32loop_nil (acc nbits : Nat) : b32loop acc nbits [] = [] := rfl

/-- The values of a text, character by character. -/
@[simp] theorem b32values_nil : b32values [] = [] := rfl

theorem b32values_append (s t : List Byte) : b32values (s ++ t) = b32values s ++ b32values t := by
  simp [b32values]

@[simp] theorem length_counterBytes (c : Nat) : (counterBytes c).length = 8 := by simp [counterBytes]

@[simp] theorem length_codeStrOf (n : Nat) : (codeStrOf n).length = 6 := by simp [codeStrOf]

@[simp] theorem length_chainBytes (h : Chain) : h.bytes.length = 20 := by simp [Chain.bytes]

@[simp] theorem length_sha1 (m : List Byte) : (sha1 m).length = 20 := by simp [sha1]

@[simp] theorem length_hmacSha1 (key msg : List Byte) : (hmacSha1 key msg).length = 20 := by simp [hmacSha1]

/-- The 31-bit mask is reduction modulo 2^31. -/
theorem toNat_dtBinary (d : List Byte) : (dtBinary d).toNat = (be32 d (dtOffset d)).toNat % 2 ^ 31 := by
  rw [dtBinary, BitVec.toNat_and]
  exact Nat.and_two_pow_sub_one_eq_mod _ 31

/-- BINARY has 31 bits. -/
theorem dtBinary_lt (d : List Byte) : (dtBinary d).toNat < 2 ^ 31 := by
  rw [toNat_dtBinary]
  exact Nat.mod_lt _ (by decide)

/-- CODE is below the modulus, so it fits its register. -/
theorem codeOf_lt (b : Word) : codeOf b < Config.modulus := Nat.mod_lt _ (by decide)

theorem toNat_code (b : Word) : (BitVec.ofNat 32 (codeOf b)).toNat = codeOf b := by
  have := codeOf_lt b
  rw [BitVec.toNat_ofNat, Nat.mod_eq_of_lt]
  simp only [Config.modulus] at this
  omega

end Sys2Proof.Machine
end

