-- ==== Sys2Proof/Laws/PerInstr.lean ====
section
/-! SUPPORT. Statements made per instruction. -/

namespace Sys2Proof.Laws.CommandWord

/-- The command word of `i` has a zero field of zeros and an assigned opcode, and selects `i` (spec/30_encoding.md R60, R62). -/
def Statement (i : Instr) : Prop :=
  i.wellFormed = true ∧ zeroField (encode i) = 0 ∧ opcodeOk (encode i) = true ∧ decode (encode i) = .ok i

theorem decode : Statement .decode := by unfold Statement; decide
theorem counter : Statement .counter := by unfold Statement; decide
theorem hmac : Statement .hmac := by unfold Statement; decide
theorem trunc : Statement .trunc := by unfold Statement; decide
theorem generate : Statement .generate := by unfold Statement; decide
theorem remain : Statement .remain := by unfold Statement; decide
theorem wipe : Statement .wipe := by unfold Statement; decide

end Sys2Proof.Laws.CommandWord
end

