-- ==== Sys2Proof/Laws/State.lean ====
section
/-! SUPPORT. What each shared update of State leaves in each field: one lemma per field per update, true by rfl. -/

namespace Sys2Proof.Machine

variable (s : State) (c : FaultCode) (a : Answer) (d : List Byte) (w : Word)

/-! The update `finish`. -/

@[simp] theorem finish_status : (finish s).status = s.status.completed := rfl
@[simp] theorem finish_curCmd : (finish s).curCmd = s.curCmd := rfl
@[simp] theorem finish_timeMs : (finish s).timeMs = s.timeMs := rfl
@[simp] theorem finish_period : (finish s).period = s.period := rfl
@[simp] theorem finish_secretLen : (finish s).secretLen = s.secretLen := rfl
@[simp] theorem finish_keyLen : (finish s).keyLen = s.keyLen := rfl
@[simp] theorem finish_remaining : (finish s).remaining = s.remaining := rfl
@[simp] theorem finish_binary : (finish s).binary = s.binary := rfl
@[simp] theorem finish_code : (finish s).code = s.code := rfl
@[simp] theorem finish_secret : (finish s).secret = s.secret := rfl
@[simp] theorem finish_key : (finish s).key = s.key := rfl
@[simp] theorem finish_msg : (finish s).msg = s.msg := rfl
@[simp] theorem finish_digest : (finish s).digest = s.digest := rfl
@[simp] theorem finish_codeStr : (finish s).codeStr = s.codeStr := rfl
@[simp] theorem finish_scratch : (finish s).scratch = .arbitrary := rfl
@[simp] theorem finish_schedule : (finish s).schedule = s.schedule := rfl
@[simp] theorem finish_answers : (finish s).answers = s.answers := rfl
@[simp] theorem finish_freeReads : (finish s).freeReads = s.freeReads := rfl

/-! The update `raiseFault`. -/

@[simp] theorem raiseFault_status : (raiseFault c s).status = Status.faulted c := rfl
@[simp] theorem raiseFault_curCmd : (raiseFault c s).curCmd = s.curCmd := rfl
@[simp] theorem raiseFault_timeMs : (raiseFault c s).timeMs = s.timeMs := rfl
@[simp] theorem raiseFault_period : (raiseFault c s).period = s.period := rfl
@[simp] theorem raiseFault_secretLen : (raiseFault c s).secretLen = s.secretLen := rfl
@[simp] theorem raiseFault_keyLen : (raiseFault c s).keyLen = s.keyLen := rfl
@[simp] theorem raiseFault_remaining : (raiseFault c s).remaining = s.remaining := rfl
@[simp] theorem raiseFault_binary : (raiseFault c s).binary = s.binary := rfl
@[simp] theorem raiseFault_code : (raiseFault c s).code = s.code := rfl
@[simp] theorem raiseFault_secret : (raiseFault c s).secret = s.secret := rfl
@[simp] theorem raiseFault_key : (raiseFault c s).key = s.key := rfl
@[simp] theorem raiseFault_msg : (raiseFault c s).msg = s.msg := rfl
@[simp] theorem raiseFault_digest : (raiseFault c s).digest = s.digest := rfl
@[simp] theorem raiseFault_codeStr : (raiseFault c s).codeStr = s.codeStr := rfl
@[simp] theorem raiseFault_scratch : (raiseFault c s).scratch = .arbitrary := rfl
@[simp] theorem raiseFault_schedule : (raiseFault c s).schedule = s.schedule := rfl
@[simp] theorem raiseFault_answers : (raiseFault c s).answers = s.answers := rfl
@[simp] theorem raiseFault_freeReads : (raiseFault c s).freeReads = s.freeReads := rfl

/-! The update `answer`. -/

@[simp] theorem answer_status : (answer a s).status = s.status := rfl
@[simp] theorem answer_curCmd : (answer a s).curCmd = s.curCmd := rfl
@[simp] theorem answer_timeMs : (answer a s).timeMs = s.timeMs := rfl
@[simp] theorem answer_period : (answer a s).period = s.period := rfl
@[simp] theorem answer_secretLen : (answer a s).secretLen = s.secretLen := rfl
@[simp] theorem answer_keyLen : (answer a s).keyLen = s.keyLen := rfl
@[simp] theorem answer_remaining : (answer a s).remaining = s.remaining := rfl
@[simp] theorem answer_binary : (answer a s).binary = s.binary := rfl
@[simp] theorem answer_code : (answer a s).code = s.code := rfl
@[simp] theorem answer_secret : (answer a s).secret = s.secret := rfl
@[simp] theorem answer_key : (answer a s).key = s.key := rfl
@[simp] theorem answer_msg : (answer a s).msg = s.msg := rfl
@[simp] theorem answer_digest : (answer a s).digest = s.digest := rfl
@[simp] theorem answer_codeStr : (answer a s).codeStr = s.codeStr := rfl
@[simp] theorem answer_scratch : (answer a s).scratch = s.scratch := rfl
@[simp] theorem answer_schedule : (answer a s).schedule = s.schedule := rfl
@[simp] theorem answer_answers : (answer a s).answers = s.answers ++ [a] := rfl
@[simp] theorem answer_freeReads : (answer a s).freeReads = s.freeReads := rfl

/-! The update `withCode`. -/

@[simp] theorem withCode_status : (withCode d s).status = s.status := rfl
@[simp] theorem withCode_curCmd : (withCode d s).curCmd = s.curCmd := rfl
@[simp] theorem withCode_timeMs : (withCode d s).timeMs = s.timeMs := rfl
@[simp] theorem withCode_period : (withCode d s).period = s.period := rfl
@[simp] theorem withCode_secretLen : (withCode d s).secretLen = s.secretLen := rfl
@[simp] theorem withCode_keyLen : (withCode d s).keyLen = s.keyLen := rfl
@[simp] theorem withCode_remaining : (withCode d s).remaining = s.remaining := rfl
@[simp] theorem withCode_binary : (withCode d s).binary = dtBinary d := rfl
@[simp] theorem withCode_code : (withCode d s).code = BitVec.ofNat 32 (codeOf (dtBinary d)) := rfl
@[simp] theorem withCode_secret : (withCode d s).secret = s.secret := rfl
@[simp] theorem withCode_key : (withCode d s).key = s.key := rfl
@[simp] theorem withCode_msg : (withCode d s).msg = s.msg := rfl
@[simp] theorem withCode_digest : (withCode d s).digest = s.digest := rfl
@[simp] theorem withCode_codeStr : (withCode d s).codeStr = bufOf 6 (codeStrOf (codeOf (dtBinary d))) := rfl
@[simp] theorem withCode_scratch : (withCode d s).scratch = s.scratch := rfl
@[simp] theorem withCode_schedule : (withCode d s).schedule = s.schedule := rfl
@[simp] theorem withCode_answers : (withCode d s).answers = s.answers := rfl
@[simp] theorem withCode_freeReads : (withCode d s).freeReads = s.freeReads := rfl

/-! The update `withCommand`. -/

@[simp] theorem withCommand_status : (withCommand w s).status = s.status.accepted := rfl
@[simp] theorem withCommand_curCmd : (withCommand w s).curCmd = w := rfl
@[simp] theorem withCommand_timeMs : (withCommand w s).timeMs = s.timeMs := rfl
@[simp] theorem withCommand_period : (withCommand w s).period = s.period := rfl
@[simp] theorem withCommand_secretLen : (withCommand w s).secretLen = s.secretLen := rfl
@[simp] theorem withCommand_keyLen : (withCommand w s).keyLen = s.keyLen := rfl
@[simp] theorem withCommand_remaining : (withCommand w s).remaining = s.remaining := rfl
@[simp] theorem withCommand_binary : (withCommand w s).binary = s.binary := rfl
@[simp] theorem withCommand_code : (withCommand w s).code = s.code := rfl
@[simp] theorem withCommand_secret : (withCommand w s).secret = s.secret := rfl
@[simp] theorem withCommand_key : (withCommand w s).key = s.key := rfl
@[simp] theorem withCommand_msg : (withCommand w s).msg = s.msg := rfl
@[simp] theorem withCommand_digest : (withCommand w s).digest = s.digest := rfl
@[simp] theorem withCommand_codeStr : (withCommand w s).codeStr = s.codeStr := rfl
@[simp] theorem withCommand_scratch : (withCommand w s).scratch = s.scratch := rfl
@[simp] theorem withCommand_schedule : (withCommand w s).schedule = .engine :: s.schedule := rfl
@[simp] theorem withCommand_answers : (withCommand w s).answers = s.answers := rfl
@[simp] theorem withCommand_freeReads : (withCommand w s).freeReads = s.freeReads := rfl

/-! The update `clearBlock`. -/

@[simp] theorem clearBlock_status : (clearBlock s).status = State.reset.status := rfl
@[simp] theorem clearBlock_curCmd : (clearBlock s).curCmd = State.reset.curCmd := rfl
@[simp] theorem clearBlock_timeMs : (clearBlock s).timeMs = State.reset.timeMs := rfl
@[simp] theorem clearBlock_period : (clearBlock s).period = State.reset.period := rfl
@[simp] theorem clearBlock_secretLen : (clearBlock s).secretLen = State.reset.secretLen := rfl
@[simp] theorem clearBlock_keyLen : (clearBlock s).keyLen = State.reset.keyLen := rfl
@[simp] theorem clearBlock_remaining : (clearBlock s).remaining = State.reset.remaining := rfl
@[simp] theorem clearBlock_binary : (clearBlock s).binary = State.reset.binary := rfl
@[simp] theorem clearBlock_code : (clearBlock s).code = State.reset.code := rfl
@[simp] theorem clearBlock_secret : (clearBlock s).secret = State.reset.secret := rfl
@[simp] theorem clearBlock_key : (clearBlock s).key = State.reset.key := rfl
@[simp] theorem clearBlock_msg : (clearBlock s).msg = State.reset.msg := rfl
@[simp] theorem clearBlock_digest : (clearBlock s).digest = State.reset.digest := rfl
@[simp] theorem clearBlock_codeStr : (clearBlock s).codeStr = State.reset.codeStr := rfl
@[simp] theorem clearBlock_scratch : (clearBlock s).scratch = State.reset.scratch := rfl
@[simp] theorem clearBlock_schedule : (clearBlock s).schedule = s.schedule := rfl
@[simp] theorem clearBlock_answers : (clearBlock s).answers = s.answers := rfl
@[simp] theorem clearBlock_freeReads : (clearBlock s).freeReads = s.freeReads := rfl

/-! The state after reset. -/

@[simp] theorem reset_status : State.reset.status = Status.reset := rfl
@[simp] theorem reset_curCmd : State.reset.curCmd = 0 := rfl
@[simp] theorem reset_timeMs : State.reset.timeMs = 0 := rfl
@[simp] theorem reset_period : State.reset.period = 30 := rfl
@[simp] theorem reset_secretLen : State.reset.secretLen = 0 := rfl
@[simp] theorem reset_keyLen : State.reset.keyLen = 0 := rfl
@[simp] theorem reset_remaining : State.reset.remaining = 0 := rfl
@[simp] theorem reset_binary : State.reset.binary = 0 := rfl
@[simp] theorem reset_code : State.reset.code = 0 := rfl
@[simp] theorem reset_secret : State.reset.secret = Vector.replicate 128 0 := rfl
@[simp] theorem reset_key : State.reset.key = Vector.replicate 80 0 := rfl
@[simp] theorem reset_msg : State.reset.msg = Vector.replicate 8 0 := rfl
@[simp] theorem reset_digest : State.reset.digest = Vector.replicate 20 0 := rfl
@[simp] theorem reset_codeStr : State.reset.codeStr = Vector.replicate 6 0 := rfl
@[simp] theorem reset_scratch : State.reset.scratch = .cleared := rfl
@[simp] theorem reset_schedule : State.reset.schedule = [] := rfl
@[simp] theorem reset_answers : State.reset.answers = [] := rfl
@[simp] theorem reset_freeReads : State.reset.freeReads = 0 := rfl

/-! STATUS. -/

@[simp] theorem Status.accepted_busy (f : Status) : f.accepted.busy = true := rfl
@[simp] theorem Status.accepted_done (f : Status) : f.accepted.done = false := rfl
@[simp] theorem Status.accepted_fault (f : Status) : f.accepted.fault = f.fault := rfl
@[simp] theorem Status.accepted_fcode (f : Status) : f.accepted.fcode = f.fcode := rfl
@[simp] theorem Status.completed_busy (f : Status) : f.completed.busy = false := rfl
@[simp] theorem Status.completed_done (f : Status) : f.completed.done = true := rfl
@[simp] theorem Status.completed_fault (f : Status) : f.completed.fault = f.fault := rfl
@[simp] theorem Status.completed_fcode (f : Status) : f.completed.fcode = f.fcode := rfl
@[simp] theorem Status.faulted_busy : (Status.faulted c).busy = false := rfl
@[simp] theorem Status.faulted_done : (Status.faulted c).done = false := rfl
@[simp] theorem Status.faulted_fault : (Status.faulted c).fault = true := rfl
@[simp] theorem Status.faulted_fcode : (Status.faulted c).fcode = c.bits := rfl
@[simp] theorem Status.reset_busy : Status.reset.busy = false := rfl
@[simp] theorem Status.reset_done : Status.reset.done = false := rfl
@[simp] theorem Status.reset_fault : Status.reset.fault = false := rfl
@[simp] theorem Status.reset_fcode : Status.reset.fcode = 0 := rfl

end Sys2Proof.Machine
end

