-- ==== Sys2Proof/Laws/Window.lean ====
section
/-! SUPPORT. The laws of the register window: which transaction reaches which register, and what a read or a write can do
(spec/20_memory.md R42, R46 to R49). -/

namespace Sys2Proof.Machine

/-- The table of R42 lists every register. -/
theorem Reg.mem_all (r : Reg) : r ∈ Reg.all := by
  cases r <;> simp [Reg.all, List.mem_finRange]

/-- Two registers of the table have two offsets. -/
theorem Reg.offset_injective {r r' : Reg} (h : r.offset = r'.offset) : r = r' := by
  cases r <;> cases r' <;> simp only [Reg.offset] at h <;> first | rfl | (exfalso; omega) | (congr 1; ext; omega)

/-- A transaction reaches a register exactly when it is a 4-byte access at that register's offset. -/
theorem Reg.reached_eq_some {off bytes : Nat} {r : Reg} :
    Reg.reached off bytes = some r ↔ bytes = 4 ∧ off = r.offset := by
  unfold Reg.reached
  constructor
  · intro h
    split at h
    · have hp := List.find?_some h
      exact ⟨‹_›, (beq_iff_eq.1 hp).symm⟩
    · cases h
  · rintro ⟨rfl, rfl⟩
    simp only [if_true]
    cases hf : Reg.all.find? (fun r' => r'.offset == r.offset) with
    | none =>
      have := List.find?_eq_none.1 hf r (Reg.mem_all r)
      simp at this
    | some r' =>
      have hp := List.find?_some hf
      rw [Reg.offset_injective (beq_iff_eq.1 hp)]

/-- The transaction of `RD` or `WR` on a register reaches it. -/
@[simp] theorem Reg.reached_offset (r : Reg) : Reg.reached r.offset 4 = some r := Reg.reached_eq_some.2 ⟨rfl, rfl⟩

/-- Everything a host read can do: refuse, hand out the next free value, or answer the contents of a register. -/
theorem hostRead_cases (off bytes : Nat) (s : State) :
    (Reg.reached off bytes = none ∧ hostRead off bytes s = answer .error s) ∨
    (∃ r, Reg.reached off bytes = some r ∧ s.status.busy = true ∧ r ≠ .status ∧
      hostRead off bytes s =
        answer (.okWord (Config.busyReadWord s.freeReads)) { s with freeReads := s.freeReads + 1 }) ∨
    (∃ r, Reg.reached off bytes = some r ∧ (s.status.busy = true → r = .status) ∧
      hostRead off bytes s = answer (.okWord (readReg s r)) s) := by
  cases hr : Reg.reached off bytes with
  | none => exact .inl ⟨rfl, by simp [hostRead, hr]⟩
  | some r =>
    refine .inr ?_
    by_cases hb : s.status.busy = true ∧ r ≠ .status
    · exact .inl ⟨r, rfl, hb.1, hb.2, by simp [hostRead, hr, hb.1, hb.2]⟩
    · refine .inr ⟨r, rfl, fun h => by_contra fun hn => hb ⟨h, hn⟩, ?_⟩
      have : (s.status.busy && r != .status) = false := by
        cases h : s.status.busy with
        | false => rfl
        | true => simpa using by_contra fun hn => hb ⟨h, hn⟩
      simp [hostRead, hr, this]

/-- Everything a host write can do: refuse, discard while BUSY = 1, or write a register. -/
theorem hostWrite_cases (off bytes : Nat) (v : Word) (s : State) :
    (Reg.reached off bytes = none ∧ hostWrite off bytes v s = answer .error s) ∨
    (∃ r, Reg.reached off bytes = some r ∧ s.status.busy = true ∧ hostWrite off bytes v s = answer .ok s) ∨
    (∃ r, Reg.reached off bytes = some r ∧ s.status.busy = false ∧
      hostWrite off bytes v s = answer .ok (writeReg r v s)) := by
  cases hr : Reg.reached off bytes with
  | none => exact .inl ⟨rfl, by simp [hostWrite, hr]⟩
  | some r =>
    refine .inr ?_
    cases hb : s.status.busy with
    | true => exact .inl ⟨r, rfl, rfl, by simp [hostWrite, hr, hb]⟩
    | false => exact .inr ⟨r, rfl, rfl, by simp [hostWrite, hr, hb]⟩

/-- The three cases of acceptance (spec/30_encoding.md R63). -/
theorem acceptCommand_cases (w : Word) (s : State) :
    (s.status.busy = true ∧ acceptCommand w s = s) ∨
    (s.status.busy = false ∧ s.status.fault = true ∧ w ≠ encode .wipe ∧ acceptCommand w s = s) ∨
    (s.status.busy = false ∧ (s.status.fault = true → w = encode .wipe) ∧
      acceptCommand w s = { s with curCmd := w, status := s.status.accepted }) := by
  unfold acceptCommand
  cases hb : s.status.busy with
  | true => exact .inl ⟨rfl, by simp⟩
  | false =>
    refine .inr ?_
    by_cases h : s.status.fault = true ∧ w ≠ encode .wipe
    · exact .inl ⟨rfl, h.1, h.2, by simp [h.1, h.2]⟩
    · refine .inr ⟨rfl, fun hf => by_contra fun hn => h ⟨hf, hn⟩, ?_⟩
      have : (s.status.fault && w != encode .wipe) = false := by
        cases hf : s.status.fault with
        | false => rfl
        | true => simpa using by_contra fun hn => h ⟨hf, hn⟩
      simp [this]

/-- A host write to a register other than CMD leaves STATUS, CUR_CMD, every result the host cannot write, the scratch and the
model's own fields alone. -/
theorem writeReg_frame (r : Reg) (v : Word) (s : State) (h : r ≠ .cmd) :
    (writeReg r v s).status = s.status ∧ (writeReg r v s).curCmd = s.curCmd ∧ (writeReg r v s).keyLen = s.keyLen ∧
    (writeReg r v s).remaining = s.remaining ∧ (writeReg r v s).binary = s.binary ∧ (writeReg r v s).code = s.code ∧
    (writeReg r v s).key = s.key ∧ (writeReg r v s).codeStr = s.codeStr ∧ (writeReg r v s).scratch = s.scratch ∧
    (writeReg r v s).schedule = s.schedule ∧ (writeReg r v s).answers = s.answers ∧
    (writeReg r v s).freeReads = s.freeReads := by
  cases r <;> first | exact absurd rfl h | simp only [writeReg, and_self]

end Sys2Proof.Machine
end

