-- ==== Sys2Proof/Laws/Step.lean ====
section
/-! SUPPORT. Everything a completion and a step can do, said once. -/

namespace Sys2Proof.Machine

/-- What a command that does not fault may change before its end: results only. -/
structure OnlyResults (s u : State) : Prop where
  status : u.status = s.status
  curCmd : u.curCmd = s.curCmd
  timeMs : u.timeMs = s.timeMs
  period : u.period = s.period
  secretLen : u.secretLen = s.secretLen
  secret : u.secret = s.secret
  schedule : u.schedule = s.schedule
  answers : u.answers = s.answers
  freeReads : u.freeReads = s.freeReads

/-- The completion step of a command faults, or ends after writing results, or is WIPE. -/
theorem exec_cases (i : Instr) (s : State) :
    (∃ c, exec i s = .next (raiseFault c s)) ∨
    (i ≠ .wipe ∧ ∃ u, exec i s = .next (finish u) ∧ OnlyResults s u) ∨
    (i = .wipe ∧ exec i s = .next (clearBlock s)) := by
  cases i with
  | decode =>
    simp only [exec, execDecode]
    split
    · exact .inl ⟨_, rfl⟩
    · exact .inr (.inl ⟨by decide, _, rfl, by constructor <;> rfl⟩)
  | counter =>
    simp only [exec, execCounter]
    split
    · exact .inl ⟨_, rfl⟩
    · split
      · exact .inl ⟨_, rfl⟩
      · exact .inr (.inl ⟨by decide, _, rfl, by constructor <;> rfl⟩)
  | hmac => exact .inr (.inl ⟨by decide, _, rfl, by constructor <;> rfl⟩)
  | trunc => exact .inr (.inl ⟨by decide, _, rfl, by constructor <;> rfl⟩)
  | generate =>
    simp only [exec, execGenerate]
    split
    · exact .inl ⟨_, rfl⟩
    · split
      · exact .inl ⟨_, rfl⟩
      · exact .inr (.inl ⟨by decide, _, rfl, by constructor <;> rfl⟩)
  | remain =>
    simp only [exec, execRemain]
    split
    · exact .inl ⟨_, rfl⟩
    · exact .inr (.inl ⟨by decide, _, rfl, by constructor <;> rfl⟩)
  | wipe => exact .inr (.inr ⟨rfl, rfl⟩)

/-- What the completion step of a command can do to KEY and KEYLEN: leave them, clear them, or take in the decoded Secret. -/
theorem exec_key (i : Instr) (s t : State) (h : exec i s = .next t) :
    (t.key = s.key ∧ t.keyLen = s.keyLen) ∨ (i = .wipe ∧ t = clearBlock s) ∨
    ((i = .decode ∨ i = .generate) ∧ s.secretLen.toNat ≤ Config.secretMax ∧ t.key = bufOf 80 (b32decode (secretText s)) ∧
      t.keyLen = BitVec.ofNat 32 (b32decode (secretText s)).length) := by
  cases i with
  | decode =>
    simp only [exec, execDecode] at h
    split at h <;> cases h
    · exact .inl ⟨rfl, rfl⟩
    · exact .inr (.inr ⟨.inl rfl, by omega, rfl, rfl⟩)
  | counter =>
    simp only [exec, execCounter] at h
    split at h
    · cases h; exact .inl ⟨rfl, rfl⟩
    · split at h <;> cases h <;> exact .inl ⟨rfl, rfl⟩
  | hmac => cases h; exact .inl ⟨rfl, rfl⟩
  | trunc => cases h; exact .inl ⟨rfl, rfl⟩
  | generate =>
    simp only [exec, execGenerate] at h
    split at h
    · cases h; exact .inl ⟨rfl, rfl⟩
    · split at h <;> cases h
      · exact .inl ⟨rfl, rfl⟩
      · exact .inr (.inr ⟨.inr rfl, by omega, rfl, rfl⟩)
  | remain =>
    simp only [exec, execRemain] at h
    split at h <;> cases h <;> exact .inl ⟨rfl, rfl⟩
  | wipe => cases h; exact .inr (.inl ⟨rfl, rfl⟩)

/-- The completion step runs the command CUR_CMD selects, or takes BAD_CMD. -/
theorem complete_cases (s : State) :
    (∃ i, decode s.curCmd = .ok i ∧ complete s = exec i s) ∨
    (∃ e, decode s.curCmd = .error e ∧ complete s = .next (raiseFault .badCmd s)) := by
  unfold complete
  cases decode s.curCmd with
  | ok i => exact .inl ⟨i, rfl, rfl⟩
  | error e => exact .inr ⟨e, rfl, rfl⟩

/-- Everything a step that answers a next state can have been. -/
theorem step_cases {s t : State} (h : step s = .next t) :
    (∃ off bytes rest, s.schedule = .read off bytes :: rest ∧ t = hostRead off bytes { s with schedule := rest }) ∨
    (∃ off bytes v rest, s.schedule = .write off bytes v :: rest ∧
      t = hostWrite off bytes v { s with schedule := rest }) ∨
    (∃ rest, s.schedule = .reset :: rest ∧ t = clearBlock { s with schedule := rest }) ∨
    (∃ u, (s.schedule = [] ∧ u = s ∨ ∃ rest, s.schedule = .engine :: rest ∧ u = { s with schedule := rest }) ∧
      (s.status.busy = false ∧ t = u ∨ s.status.busy = true ∧ complete u = .next t)) := by
  unfold step at h
  split at h
  · rename_i hs
    refine .inr (.inr (.inr ⟨s, .inl ⟨hs, rfl⟩, ?_⟩))
    cases hb : s.status.busy <;> simp [engineTurn, hb] at h
    · exact .inl ⟨rfl, h.symm⟩
    · exact .inr ⟨rfl, h⟩
  · rename_i turn rest hs
    cases turn with
    | read off bytes => exact .inl ⟨off, bytes, rest, hs, by simpa [takeTurn] using h.symm⟩
    | write off bytes v => exact .inr (.inl ⟨off, bytes, v, rest, hs, by simpa [takeTurn] using h.symm⟩)
    | reset => exact .inr (.inr (.inl ⟨rest, hs, by simpa [takeTurn] using h.symm⟩))
    | engine =>
      refine .inr (.inr (.inr ⟨{ s with schedule := rest }, .inr ⟨rest, hs, rfl⟩, ?_⟩))
      cases hb : s.status.busy <;> simp [takeTurn, engineTurn, hb] at h
      · exact .inl ⟨rfl, h.symm⟩
      · exact .inr ⟨rfl, h⟩

/-- A run of `k + 1` steps that starts with a step to `t`. -/
theorem run_succ {s t : State} (h : step s = .next t) (k : Nat) :
    Host.Core.run Sys2Proof.core (k + 1) s = Host.Core.run Sys2Proof.core k t := by
  have hc : Sys2Proof.core.step s = .next t := h
  simp only [Host.Core.run, hc]

end Sys2Proof.Machine
end

