-- ==== Sys2Proof/Tests/Slice0.lean ====
section
/-! SUPPORT. The model's own tests, with the source of each expected result, and a witness for the hypotheses of every
statement that has some, one per clause at a boundary value. -/

namespace Sys2Proof.Tests

open Sys2Proof.Machine

/-! ## States the tests start from -/

/-- A block with the word `w` accepted and the given turns to come. -/
def busyWith (w : Word) (turns : List Turn) : State :=
  { State.reset with status := { busy := true, done := false, fault := false, fcode := 0 }, curCmd := w, schedule := turns }

/-- An idle block with a recorded fault, PERIOD_ZERO, and the given turns to come. -/
def faultedWith (turns : List Turn) : State :=
  { State.reset with status := { busy := false, done := false, fault := true, fcode := 3 }, schedule := turns }

/-- An idle block that holds a text as its Secret, a time and a period. -/
def holding (text : List Byte) (time : BitVec 64) (period : Word) : State :=
  { State.reset with secret := bufOf 128 text, secretLen := BitVec.ofNat 32 text.length, timeMs := time, period := period }

/-- An idle block with the given SECRET_LEN, TIME_MS and PERIOD. -/
def inputs (len : Word) (time : BitVec 64) (period : Word) : State :=
  { State.reset with secretLen := len, timeMs := time, period := period }

/-- The state one step after the command word `w` has been placed in `s`. -/
def ran (w : Nat) (s : State) : State :=
  match step (s.withFetchWord 32 w) with
  | .next t => t
  | _ => s

/-- The state one step after `s`. -/
def stepped (s : State) : State :=
  match step s with
  | .next t => t
  | _ => s

/-! ## WellFormed refuses ill-formed terms (R60, R62, R65 of spec/30_encoding.md; R48 of spec/20_memory.md) -/

theorem test_zeroField_refuses_bit_8 : zeroFieldOk 0x00000105 = false := by decide
theorem test_zeroField_refuses_bit_31 : zeroFieldOk 0x80000005 = false := by decide
theorem test_opcode_refuses_zero : opcodeOk 0x00000000 = false := by decide
theorem test_opcode_refuses_eight : opcodeOk 0x00000008 = false := by decide
theorem test_commandWord_refuses_all_ones : commandWordOk 0xFFFFFFFF = false := by decide
theorem test_aligned_refuses_006 : alignedOk 0x006 = false := by decide
theorem test_width_refuses_a_byte : widthOk 1 = false := by decide
theorem test_inside_refuses_200 : insideOk 0x200 = false := by decide
theorem test_defined_refuses_the_holes :
    [0x038, 0x03C, 0x054, 0x07C, 0x0D0, 0x0FC, 0x180, 0x1FC].all (fun off => !definedOk off) = true := by decide
theorem test_access_takes_the_edges :
    [0x000, 0x034, 0x040, 0x050, 0x080, 0x0CC, 0x100, 0x17C].all (fun off => accessOk off 4) = true := by decide
theorem test_wellFormed_takes_every_command :
    [Instr.decode, .counter, .hmac, .trunc, .generate, .remain, .wipe].all Instr.wellFormed = true := by decide

/-! ## Decoding: each word of R62 as spec/30_encoding.md writes it, and the names of the rejections -/

theorem test_word_decode : decode 0b00000000000000000000000000000001 = .ok .decode := by decide
theorem test_word_counter : decode 0b00000000000000000000000000000010 = .ok .counter := by decide
theorem test_word_hmac : decode 0b00000000000000000000000000000011 = .ok .hmac := by decide
theorem test_word_trunc : decode 0b00000000000000000000000000000100 = .ok .trunc := by decide
theorem test_word_generate : decode 0b00000000000000000000000000000101 = .ok .generate := by decide
theorem test_word_remain : decode 0b00000000000000000000000000000110 = .ok .remain := by decide
theorem test_word_wipe : decode 0b00000000000000000000000000000111 = .ok .wipe := by decide
theorem test_word_107_rejected : decode 0x00000107 = .error .zeroFieldSet := by decide
theorem test_word_008_rejected : decode 0x00000008 = .error .opcodeUnassigned := by decide

/-! ## The commands, on vectors of spec/95_test_vectors.md -/

/-- V1.15: "A1B0C8D9" decodes as "ABCD". -/
theorem test_decode_strips_digits :
    let t := ran 1 (holding [0x41, 0x31, 0x42, 0x30, 0x43, 0x38, 0x44, 0x39] 0 30)
    t.keyLen = 2 ∧ wordAt t.key 0 = 0x00440000 ∧ t.status.word = 0x00000002 := by decide +kernel

/-- V1.26: SECRET_LEN = 129. -/
theorem test_decode_len_range : (ran 1 (inputs 129 0 30)).status.word = 0x00000024 := by decide

/-- V2.8b: TIME_MS = 2^64 - 1, PERIOD = 4294968. -/
theorem test_counter_long_period :
    wordAt (ran 2 (inputs 0 0xFFFFFFFFFFFFFFFF 0x00418938)).msg 1 = 0xFFFFFD40 := by decide +kernel

/-- V2.8a: the same time with PERIOD = 4294967. -/
theorem test_counter_range : (ran 2 (inputs 0 0xFFFFFFFFFFFFFFFF 0x00418937)).status.word = 0x00000044 := by decide

/-- V3.7: key "1234567890", message 00 .. 01. -/
theorem test_hmac_short_key :
    (ran 3 { State.reset with
        key := bufOf 80 [0x31, 0x32, 0x33, 0x34, 0x35, 0x36, 0x37, 0x38, 0x39, 0x30], keyLen := 10
        msg := bufOf 8 [0, 0, 0, 0, 0, 0, 0, 1] }).digest.toList =
      [0xC1, 0xE0, 0x28, 0x72, 0x3C, 0xC6, 0x2B, 0xDF, 0x50, 0x62, 0x16, 0x87, 0xB9, 0xD3, 0x80, 0x9E,
        0x9F, 0xB2, 0xC1, 0xC1] := by decide +kernel

/-- V3.21: a key of 65 bytes, which is hashed first. -/
theorem test_hmac_long_key :
    (let pattern : List Byte := [0x00, 0x44, 0x32, 0x14, 0xC7, 0x42, 0x54, 0xB6, 0x35, 0xCF, 0x84, 0x65, 0x3A, 0x56, 0xD7, 0xC6, 0x75,
        0xBE, 0x77, 0xDF]
     (ran 3 { State.reset with
        key := bufOf 80 ((pattern ++ pattern ++ pattern ++ pattern).take 65), keyLen := 65
        msg := bufOf 8 [0, 0, 0, 0, 0, 0, 0, 1] }).digest.toList.take 8) =
      [0x8C, 0x23, 0x1D, 0xAC, 0x81, 0xB3, 0x99, 0xA5] := by decide +kernel

/-- V4.4: the top bit of the four bytes is dropped, the high nibble of byte 19 ignored. -/
theorem test_trunc_masks :
    (let t := ran 4 { State.reset with
        digest := bufOf 20 ([0x80, 0x00, 0x00, 0x2A] ++ List.replicate 15 0 ++ [0xF0]) }
     (t.binary, t.code, wordAt t.codeStr 0, wordAt t.codeStr 1)) = (0x2A, 42, 0x30303030, 0x34320000) := by decide +kernel

/-- V4.7: offset 10. -/
theorem test_trunc_offset :
    (ran 4 { State.reset with
        digest := bufOf 20 [0x1F, 0x86, 0x98, 0x69, 0x0E, 0x02, 0xCA, 0x16, 0x61, 0x85, 0x50, 0xEF, 0x7F, 0x19, 0xDA, 0x8E,
          0x94, 0x5B, 0x55, 0x5A] }).code = 0x000D51D9 := by decide +kernel

/-- V5.2 and P1: "GEZDGNBVGY3TQOJQ" at 59000 ms; PERIOD = 60 is not read. -/
theorem test_generate_code :
    (let t := ran 5 (holding [0x47, 0x45, 0x5A, 0x44, 0x47, 0x4E, 0x42, 0x56, 0x47, 0x59, 0x33, 0x54, 0x51, 0x4F, 0x4A, 0x51]
        59000 60)
     (t.code, wordAt t.codeStr 0, wordAt t.codeStr 1)) = (0x000404FC, 0x32363334, 0x32300000) := by decide +kernel

/-- V5.4.7: LEN_RANGE wins over COUNTER_RANGE. -/
theorem test_generate_len_first : (ran 5 (inputs 129 0x0000753000000000 30)).status.word = 0x00000024 := by decide

/-- V2.23: TIME_MS = 2^64 - 1, PERIOD = 2^32 - 1. -/
theorem test_remain_large : (ran 6 (inputs 0 0xFFFFFFFFFFFFFFFF 0xFFFFFFFF)).remaining = 0xB3F7CED9 := by decide +kernel

/-- V2.14: a multiple of the period gives the period, not 0. -/
theorem test_remain_full : (ran 6 (inputs 0 30000 30)).remaining = 30 := by decide +kernel

/-- V6.7: WIPE clears a recorded fault and gives PERIOD its reset value. -/
theorem test_wipe_recovers :
    (let t := ran 7 { faultedWith [] with period := 60 }
     (t.status.word, t.period)) = (0, 30) := by decide

/-- V3.1, the worked example of spec/42_hmac_sha1.md R128. -/
theorem test_sha1_abc :
    sha1 [0x61, 0x62, 0x63] =
      [0xA9, 0x99, 0x3E, 0x36, 0x47, 0x06, 0x81, 0x6A, 0xBA, 0x3E, 0x25, 0x71, 0x78, 0x50, 0xC2, 0x6C, 0x9C, 0xD0, 0xD8,
        0x9D] := by decide +kernel

/-! ## The port (V6 of spec/95_test_vectors.md) -/

/-- V6.9: an undefined offset. -/
theorem test_port_undefined_offset :
    (stepped { State.reset with schedule := [.write 0x03C 4 1] }).answers = [.error] := by decide

/-- V6.11: STATUS while BUSY = 1. -/
theorem test_port_status_while_busy : (stepped (busyWith 5 [.read 0x004 4])).answers = [.okWord 1] := by decide

/-- V6.5: 0x00000107 is not WIPE. -/
theorem test_port_faulted_discards :
    (let t := stepped (faultedWith [.write 0x000 4 0x00000107])
     (t.status.word, t.curCmd)) = (0x00000034, 0) := by decide

/-- V6.6: PERIOD is written while FAULT = 1. -/
theorem test_port_faulted_writes : (stepped (faultedWith [.write 0x010 4 60])).period = 60 := by decide

/-! ## Witnesses: states and operands that meet the hypotheses of the statements, clause by clause -/

theorem witness_StepRunsTheAcceptedCommand_empty :
    (busyWith 5 []).status.busy = true ∧ decode (busyWith 5 []).curCmd = .ok .generate ∧ (busyWith 5 []).schedule = [] := by
  decide

theorem witness_StepRunsTheAcceptedCommand_turn :
    let s := busyWith 7 [.engine, .reset]
    s.status.busy = true ∧ decode s.curCmd = .ok .wipe ∧ s.schedule = .engine :: [.reset] := by decide

theorem witness_StepRunsTheAcceptedCommand_illegal_empty :
    let s := busyWith 0 []
    s.status.busy = true ∧ decode s.curCmd = .error .opcodeUnassigned ∧ s.schedule = [] := by decide

theorem witness_StepRunsTheAcceptedCommand_illegal_turn :
    let s := busyWith 0x105 [.engine]
    s.status.busy = true ∧ decode s.curCmd = .error .zeroFieldSet ∧ s.schedule = .engine :: [] := by decide

theorem witness_CommandAcceptance_busy : (busyWith 1 []).status.busy = true := rfl

theorem witness_CommandAcceptance_faulted :
    (faultedWith []).status.busy = false ∧ (faultedWith []).status.fault = true ∧ (6 : Word) ≠ 0x00000007 := by decide

theorem witness_CommandAcceptance_idle : State.reset.status.busy = false ∧ State.reset.status.fault = false := by decide

theorem witness_CommandAcceptance_faulted_wipe :
    (faultedWith []).status.busy = false ∧ (faultedWith []).status.fault = true ∧ encode .wipe = 0x00000007 := by decide

theorem witness_IllegalWordIsAcceptedAndFaults :
    let s : State := { State.reset with schedule := [.write 0x000 4 0x00000008, .engine, .reset] }
    commandWordOk 0x00000008 = false ∧ s.status.busy = false ∧ s.status.fault = false ∧
      s.schedule = .write 0x000 4 0x00000008 :: .engine :: [.reset] := by decide

theorem witness_CompletionWritesTheFlags_fault : ∃ t, complete (busyWith 0x105 []) = .next t ∧ t.status.fault = true :=
  ⟨_, rfl, rfl⟩

theorem witness_CompletionWritesTheFlags_wipe : ∃ t, complete (busyWith 7 []) = .next t ∧ t.status.done = false :=
  ⟨_, rfl, rfl⟩

theorem witness_CompletionWritesTheFlags_done : ∃ t, complete (busyWith 4 []) = .next t ∧ t.status.done = true :=
  ⟨_, rfl, rfl⟩

theorem witness_AcceptedCommandCompletesOnUnchangedRegisters_mixed :
    let s := busyWith 5 [.read 0x02C 4, .write 0x008 4 5, .write 0x000 4 7, .read 0x006 1, .engine, .engine]
    s.status.busy = true ∧ s.schedule.all Turn.notReset = true := by decide

theorem witness_AcceptedCommandCompletesOnUnchangedRegisters_empty :
    (busyWith 5 []).status.busy = true ∧ (busyWith 5 []).schedule.all Turn.notReset = true := by decide

theorem witness_IdleEngineChangesNothing_empty : State.reset.status.busy = false ∧ State.reset.schedule = [] := by decide

theorem witness_IdleEngineChangesNothing_turn :
    (faultedWith [.engine]).status.busy = false ∧ (faultedWith [.engine]).schedule = .engine :: [] := by decide

theorem witness_RefusedAccess_misaligned : 0x006 % 4 ≠ 0 ∧ 0x0FF % 4 ≠ 0 := by decide
theorem witness_RefusedAccess_width : (1 : Nat) ≠ 4 ∧ (8 : Nat) ≠ 4 ∧ (0 : Nat) ≠ 4 := by decide
theorem witness_RefusedAccess_outside : (0x1FF : Nat) < 0x200 := by decide
theorem witness_RefusedAccess_holes :
    ((0x054 : Nat) ≤ 0x054 ∧ (0x07C : Nat) ≤ 0x07C) ∧ ((0x0D0 : Nat) ≤ 0x0FC ∧ (0x0FC : Nat) ≤ 0x0FC) ∧
      ((0x180 : Nat) ≤ 0x180 ∧ (0x1FC : Nat) ≤ 0x1FC) := by decide

theorem witness_IdleReadAnswersTheContents : (faultedWith []).status.busy = false := rfl

theorem witness_IdleWriteStoresOrIsDiscarded :
    State.reset.status.busy = false ∧ Reg.access (.secret 31) = .rw ∧ Reg.access (.key 19) = .ro ∧ Reg.access .cmd = .wo := by
  decide

theorem witness_BusyAccessesAreUnspecifiedOrDiscarded : (busyWith 5 []).status.busy = true ∧ Reg.code ≠ .status := by decide

theorem witness_BufferWordIsMostSignificantByteFirst :
    (4 * 31 + 3 < 128) ∧ (4 * 19 + 3 < 80) ∧ (4 * 1 + 3 < 8) ∧ (4 * 4 + 3 < 20) ∧ ((3 : Nat) < 4 * 1 ∨ 4 * 1 + 3 < 3) := by
  decide

theorem witness_SecretStringLoadsTheSecret_full :
    let text : List Byte := List.replicate 128 0x41
    let s : State := { State.reset with schedule := Script.secretStr text ++ [.engine] }
    s.status.busy = false ∧ text.length ≤ 128 ∧ s.schedule = Script.secretStr text ++ [.engine] ∧ text.length = 128 :=
  ⟨rfl, by simp, rfl, by simp⟩

theorem witness_SecretStringLoadsTheSecret_empty :
    let s := faultedWith (Script.secretStr [])
    s.status.busy = false ∧ ([] : List Byte).length ≤ 128 ∧ s.schedule = Script.secretStr [] ++ [] :=
  ⟨rfl, by decide, rfl⟩

theorem witness_SecretStringLoadsTheSecret_bytes :
    ((5 : Nat) ≤ 5 ∧ 5 < 4 * ((5 + 3) / 4)) ∧ 7 < 4 * ((5 + 3) / 4) ∧ 4 * ((5 + 3) / 4) ≤ 8 ∧ 4 * ((4 + 3) / 4) ≤ 4 := by decide

theorem witness_CharacterClassesOfTheTable :
    [(0x31, 0x32), (0x37, 0x38), (0x40, 0x41), (0x5A, 0x5B), (0x60, 0x61), (0x7A, 0x7B)].all
      (fun p : Byte × Byte => p.2.toNat == p.1.toNat + 1 && (b32value p.1).isSome != (b32value p.2).isSome) = true := by
  decide

theorem witness_CharacterClassesOfTheTable_stripped : b32value 0x3D = none ∧ b32value 0xFF = none := by decide

theorem witness_DecodedLengthIsFiveEighths :
    (List.replicate 128 (0x37 : Byte)).length ≤ 128 ∧ (([0x30, 0x41, 0x21] : List Byte).filter b32valid).length ≤ 1 :=
  ⟨by simp, by decide⟩

theorem witness_DecodingIgnoresCaseAndInvalidBytes : b32valid 0x2D = false := by decide

theorem witness_DecodeWritesTheKey_fault : 128 < (inputs 129 0 30).secretLen.toNat := by decide
theorem witness_DecodeWritesTheKey_done : (inputs 128 0 30).secretLen.toNat ≤ 128 ∧ (79 : Nat) < 80 := by decide

theorem witness_CounterWritesTheCounterBytes_zero : (inputs 0 0 0).period.toNat = 0 := rfl
theorem witness_CounterWritesTheCounterBytes_range :
    let s := inputs 0 128849018880000 30
    s.period.toNat ≠ 0 ∧ 2 ^ 32 * 1000 * s.period.toNat ≤ s.timeMs.toNat := by decide
theorem witness_CounterWritesTheCounterBytes_done :
    let s := inputs 0 128849018879999 30
    s.period.toNat ≠ 0 ∧ s.timeMs.toNat < 2 ^ 32 * 1000 * s.period.toNat := by decide

theorem witness_LongPeriodsNeverOverflowTheCounter :
    4294968 ≤ (inputs 0 0xFFFFFFFFFFFFFFFF 4294968).period.toNat := by decide

theorem witness_CounterStepsAtWindowBoundaries :
    (30000 / 30000 = 59999 / 30000) ∧ (29999 + 1) % 30000 = 0 ∧ (29998 + 1) % 30000 ≠ 0 := by decide

theorem witness_RemainWritesTheSecondsLeft :
    (inputs 0 0 0).period.toNat = 0 ∧ (inputs 0 999 1).period.toNat ≠ 0 := by decide

theorem witness_RemainingTimeIsOneToPeriod : 1 ≤ 1 := by decide

theorem witness_CounterChangesWhereRemainingTimeJumps : (1 : Nat) ≤ 1 ∧ (2 : Nat) ≤ 2 := by decide

theorem witness_MessageScheduleRecurrence : (15 : Nat) ≤ 15 ∧ (16 : Nat) ≤ 16 ∧ (16 : Nat) ≤ 79 ∧ (79 : Nat) ≤ 79 := by decide

theorem witness_RoundFunctionsChooseParityMajority :
    (31 : Nat) < 32 ∧ (19 : Nat) ≤ 19 ∧ (40 : Nat) ≤ 40 ∧ (59 : Nat) ≤ 59 ∧ (20 ≤ 39 ∧ 39 ≤ 39) ∧ (60 ≤ 79 ∧ 79 ≤ 79) := by
  decide

theorem witness_CompressionIsEightyRounds : (79 : Nat) < 80 := by decide

theorem witness_HmacPadsOrHashesTheKey :
    64 < (List.replicate 65 (0 : Byte)).length ∧ (List.replicate 64 (0 : Byte)).length ≤ 64 ∧
      (List.replicate 63 (0 : Byte)).length < 64 := by decide

theorem witness_CodeStringIsSixDigitsOfTheCode : (999999 : Nat) < 1000000 ∧ (5 : Nat) < 6 := by decide

theorem witness_CodeRegistersAreConsistent_trunc :
    ∃ t, exec .trunc State.reset = .next t ∧ t.status.done = true := ⟨_, rfl, rfl⟩

theorem witness_CodeRegistersAreConsistent_generate :
    ∃ t, exec .generate State.reset = .next t ∧ t.status.done = true := ⟨_, rfl, rfl⟩

theorem witness_GenerateWritesEveryStage_len : 128 < (inputs 129 0 30).secretLen.toNat := by decide
theorem witness_GenerateWritesEveryStage_range :
    let s := inputs 128 128849018880000 30
    s.secretLen.toNat ≤ 128 ∧ 2 ^ 32 * 30000 ≤ s.timeMs.toNat := by decide
theorem witness_GenerateWritesEveryStage_done :
    let s := inputs 128 128849018879999 0
    s.secretLen.toNat ≤ 128 ∧ s.timeMs.toNat < 2 ^ 32 * 30000 := by decide

theorem witness_GenerateIsTheCompositionOfTheStages :
    let s := inputs 128 128849018879999 30
    s.status.busy = false ∧ s.status.fault = false ∧ s.secretLen.toNat ≤ 128 ∧ s.period = 30 ∧
      s.timeMs.toNat < 2 ^ 32 * 30000 := by decide

theorem witness_GenerateNeverFailsOnContent :
    let s := holding (List.replicate 128 0x21) 128849018879999 0
    s.status.fault = false ∧ s.secretLen.toNat ≤ 128 ∧ s.timeMs.toNat < 2 ^ 32 * 30000 := by decide +kernel

theorem witness_GenerateDependsOnSecretAndWindowAlone :
    ∃ t₁ t₂ : State,
      (holding [0x6D, 0x2D, 0x79] 30000 30).secretLen.toNat ≤ 128 ∧ (holding [0x4D, 0x59] 59999 7).secretLen.toNat ≤ 128 ∧
      (holding [0x6D, 0x2D, 0x79] 30000 30).timeMs.toNat < 2 ^ 32 * 30000 ∧
      (holding [0x4D, 0x59] 59999 7).timeMs.toNat < 2 ^ 32 * 30000 ∧
      b32decode (secretText (holding [0x6D, 0x2D, 0x79] 30000 30)) = b32decode (secretText (holding [0x4D, 0x59] 59999 7)) ∧
      (holding [0x6D, 0x2D, 0x79] 30000 30).timeMs.toNat / 30000 = (holding [0x4D, 0x59] 59999 7).timeMs.toNat / 30000 ∧
      exec .generate (holding [0x6D, 0x2D, 0x79] 30000 30) = .next t₁ ∧
      exec .generate (holding [0x4D, 0x59] 59999 7) = .next t₂ :=
  ⟨_, _, by decide, by decide, by decide, by decide, by decide +kernel, by decide, rfl, rfl⟩

theorem witness_WipeForgetsEverything :
    let s₁ := faultedWith [.engine]
    let s₂ := busyWith 7 [.engine]
    ∃ t₁ t₂, s₁.schedule = s₂.schedule ∧ s₁.answers = s₂.answers ∧ s₁.freeReads = s₂.freeReads ∧
      exec .wipe s₁ = .next t₁ ∧ exec .wipe s₂ = .next t₂ := ⟨_, _, rfl, rfl, rfl, rfl, rfl⟩

theorem witness_ResetClearsEveryRegisterAndAbortsTheCommand :
    (busyWith 5 [.reset, .engine]).schedule = .reset :: [.engine] ∧ ([.engine] : List Turn) = .engine :: [] := by decide

theorem witness_ResetAndWipeLeaveTheResetValues : (busyWith 5 [.reset]).schedule = .reset :: [] := rfl

theorem witness_CommandsFaultExactlyOnTheirCauses_illegal : ∀ i, (busyWith 0x80000005 []).curCmd ≠ encode i := by
  intro i
  cases i <;> decide

theorem witness_CommandsFaultExactlyOnTheirCauses :
    faultOf .decode (inputs 129 0 30) = some .lenRange ∧ faultOf .decode (inputs 128 0 30) = none ∧
    faultOf .counter (inputs 0 0 0) = some .periodZero ∧ faultOf .counter (inputs 0 128849018880000 30) = some .counterRange ∧
    faultOf .counter (inputs 0 128849018879999 30) = none ∧ faultOf .generate (inputs 129 128849018880000 0) = some .lenRange ∧
    faultOf .generate (inputs 128 128849018880000 0) = some .counterRange ∧ faultOf .remain (inputs 0 5 0) = some .periodZero ∧
    faultOf .wipe (inputs 129 0 0) = none := by decide

/-- An idle block with a recorded fault meets the register relations: the premises of the statement below can hold. -/
theorem faulted_has_the_relations (turns : List Turn) : (faultedWith turns).Inv := by
  refine ⟨nofun, nofun, nofun, fun _ => ⟨.periodZero, rfl⟩, Nat.zero_le _, fun j _ => ?_, (by decide : 0 < 2 ^ 31), rfl,
    .inr ⟨rfl, rfl⟩⟩
  have h : (faultedWith turns).key = Vector.replicate 80 0 := rfl
  simp only [h, byteAt, Vector.toList_replicate, List.getD_eq_getElem?_getD, List.getElem?_replicate]
  split <;> rfl

theorem witness_FaultStaysUntilWipeOrReset_host :
    let s := faultedWith [.write 0x010 4 60]
    ∃ t, s.Inv ∧ s.status.fault = true ∧ step s = .next t := ⟨_, faulted_has_the_relations _, rfl, rfl⟩

theorem witness_FaultStaysUntilWipeOrReset_reset :
    let s := faultedWith [.reset]
    ∃ t, s.Inv ∧ s.status.fault = true ∧ step s = .next t := ⟨_, faulted_has_the_relations _, rfl, rfl⟩

/-- A WIPE accepted while a fault is recorded: the other way out. -/
theorem witness_FaultStaysUntilWipeOrReset_wipe :
    let s : State := { faultedWith [] with curCmd := 7, status := { busy := true, done := false, fault := true, fcode := 3 } }
    ∃ t, s.Inv ∧ s.status.fault = true ∧ step s = .next t := by
  obtain ⟨-, -, -, -, h5, h6, h7, h8, h9⟩ := faulted_has_the_relations []
  exact ⟨_, ⟨by decide, by decide, by decide, fun _ => ⟨.periodZero, rfl⟩, h5, h6, h7, h8, h9⟩, rfl, rfl⟩

theorem witness_FaultedBlockAnswersAndTakesOnlyWipe :
    (faultedWith []).status.busy = false ∧ (faultedWith []).status.fault = true ∧ Reg.access (.msg 1) = .rw ∧
      Reg.access (.key 0) = .ro ∧ Reg.timeMsLo ≠ .msg 1 ∧ (0x00000107 : Word) ≠ 0x00000007 := by decide

theorem witness_CommandsWriteOnlyTheirResults :
    ∃ t₁ t₂ t₃ t₄ t₅ t₆, exec .decode (inputs 128 0 30) = .next t₁ ∧ exec .counter (inputs 0 0 30) = .next t₂ ∧
      exec .hmac State.reset = .next t₃ ∧ exec .trunc State.reset = .next t₄ ∧
      exec .generate (inputs 128 0 30) = .next t₅ ∧ exec .remain (inputs 0 0 1) = .next t₆ :=
  ⟨_, _, _, _, _, _, rfl, rfl, rfl, rfl, rfl, rfl⟩

theorem witness_InputsChangeOnlyByHostWriteWipeOrReset_time_low :
    ∃ t, step { State.reset with schedule := [.write 0x008 4 1] } = .next t ∧
      t.timeMs.toNat % 2 ^ 32 ≠ State.reset.timeMs.toNat % 2 ^ 32 := ⟨_, rfl, by decide +kernel⟩

theorem witness_InputsChangeOnlyByHostWriteWipeOrReset_time_high :
    ∃ t, step { State.reset with schedule := [.write 0x00C 4 1] } = .next t ∧
      t.timeMs.toNat / 2 ^ 32 ≠ State.reset.timeMs.toNat / 2 ^ 32 := ⟨_, rfl, by decide +kernel⟩

theorem witness_InputsChangeOnlyByHostWriteWipeOrReset_period :
    ∃ t, step { busyWith 7 [.engine] with period := 60 } = .next t ∧ t.period ≠ 60 := ⟨_, rfl, by decide +kernel⟩

theorem witness_InputsChangeOnlyByHostWriteWipeOrReset_length :
    ∃ t, step { inputs 128 0 30 with schedule := [.reset] } = .next t ∧ t.secretLen ≠ 128 := ⟨_, rfl, by decide +kernel⟩

theorem witness_InputsChangeOnlyByHostWriteWipeOrReset_secret :
    ∃ t, step { State.reset with schedule := [.write 0x17C 4 1] } = .next t ∧
      byteAt t.secret 127 ≠ byteAt State.reset.secret 127 := ⟨_, rfl, by decide +kernel⟩

theorem witness_ResultsChangeOnlyByCompletionOrReset :
    ∃ t, step (busyWith 6 [.engine]) = .next t ∧ t.remaining ≠ (busyWith 6 [.engine]).remaining :=
  ⟨_, rfl, by decide +kernel⟩

theorem witness_StepKeepsTheRegisterRelations :
    ∃ t, (faultedWith [.write 0x000 4 7]).Inv ∧ step (faultedWith [.write 0x000 4 7]) = .next t :=
  ⟨_, faulted_has_the_relations _, rfl⟩

theorem witness_StepKeepsTheKeyADecodedSecret :
    ∃ t, (busyWith 1 [.engine]).KeyDecoded ∧ step (busyWith 1 [.engine]) = .next t :=
  ⟨_, ⟨[0x21], by decide, by decide +kernel, by decide⟩, rfl⟩

theorem witness_StepKeepsTheKeyADecodedSecret_changed :
    ∃ t, step { holding [0x4D, 0x59] 0 30 with
        status := { busy := true, done := false, fault := false, fcode := 0 }, curCmd := 1 } = .next t ∧
      t.key ≠ State.reset.key := ⟨_, rfl, by decide +kernel⟩

theorem witness_Sha1CompressesTheBlocksFromTheConstants :
    ((83 : Nat) / 64 < (84 + 8) / 64 + 1) ∧ (19 : Nat) ≤ 19 ∧ (20 ≤ 39 ∧ 39 ≤ 39) ∧ (40 ≤ 59 ∧ 59 ≤ 59) ∧
      (60 ≤ 79 ∧ 79 ≤ 79) := by decide

end Sys2Proof.Tests
end

section
/-! PROOFS. The decoder read backwards: a command word is accepted for one command only (spec/30_encoding.md R60, R62). -/

namespace Sys2Proof

/-- An opcode selects a command only if it is that command's. -/
theorem eq_opcode_of_commandOfOpcode {op : BitVec 8} {i : Instr} (h : commandOfOpcode op = some i) : op = i.opcode := by
  unfold commandOfOpcode at h
  split at h <;> cases h <;> exact BitVec.eq_of_toNat_eq ‹_›

/-- A word is its field `zero` and its opcode (R60). -/
theorem zeroField_append_opcodeField (w : Word) : zeroField w ++ opcodeField w = w :=
  (BitVec.extractLsb'_append_extractLsb'_eq_extractLsb' (Nat.zero_add 8).symm).trans BitVec.extractLsb'_eq_self

/-- The decoder gives a command exactly for that command's word (R62, R65). -/
theorem decode_eq_ok_iff {w : Word} {i : Instr} : decode w = .ok i ↔ w = encode i := by
  constructor
  · intro h
    unfold decode at h
    split at h
    next hzero =>
      split at h
      next hop =>
        cases h
        rw [← zeroField_append_opcodeField w, hzero, eq_opcode_of_commandOfOpcode hop, encode]
      next => cases h
    next => cases h
  · rintro rfl
    cases i <;> rfl

end Sys2Proof
end

section
/-! PROOFS. What the host port and a completion do to the state, in the forms the invariants use. -/

namespace Sys2Proof.Machine

/-! Equality of the registers (`SameRegisters`), read off field by field. -/

namespace SameRegisters
variable {s t : State} (h : SameRegisters s t)
include h

theorem status : t.status = s.status := (congrArg State.status h :)
theorem curCmd : t.curCmd = s.curCmd := (congrArg State.curCmd h :)
theorem timeMs : t.timeMs = s.timeMs := (congrArg State.timeMs h :)
theorem period : t.period = s.period := (congrArg State.period h :)
theorem secretLen : t.secretLen = s.secretLen := (congrArg State.secretLen h :)
theorem secret : t.secret = s.secret := (congrArg State.secret h :)
theorem keyLen : t.keyLen = s.keyLen := (congrArg State.keyLen h :)
theorem key : t.key = s.key := (congrArg State.key h :)
theorem binary : t.binary = s.binary := (congrArg State.binary h :)
theorem code : t.code = s.code := (congrArg State.code h :)
theorem codeStr : t.codeStr = s.codeStr := (congrArg State.codeStr h :)

end SameRegisters

/-- A host read changes no register (R46). -/
theorem hostRead_sameRegisters (off bytes : Nat) (s : State) : SameRegisters s (hostRead off bytes s) := by
  obtain ⟨-, h⟩ | ⟨r, -, -, -, h⟩ | ⟨r, -, -, h⟩ := hostRead_cases off bytes s <;> rw [h] <;> rfl

/-- An engine's turn while BUSY = 0 (R10). -/
theorem engineTurn_of_idle {s : State} (h : s.status.busy = false) : engineTurn s = .next s := by
  simp [engineTurn, h]

/-- Everything a step can do to the registers: nothing (a read, an answered or discarded write, an idle engine), clear the
block, store a host write, take BAD_CMD, or complete a command other than WIPE. -/
theorem step_register_cases {s t : State} (h : step s = .next t) :
    SameRegisters s t ∨
    (ClearsTheBlock s ∧ SameRegisters State.reset t) ∨
    (∃ r v rest, s.status.busy = false ∧ s.schedule = .write r.offset 4 v :: rest ∧
      t = answer .ok (writeReg r v { s with schedule := rest })) ∨
    (∃ turns, t = raiseFault .badCmd { s with schedule := turns }) ∨
    (∃ i turns, s.status.busy = true ∧ EngineHasTheTurn s ∧ i ≠ .wipe ∧ s.curCmd = encode i ∧
      exec i { s with schedule := turns } = .next t) := by
  obtain ⟨off, bytes, rest, -, rfl⟩ | ⟨off, bytes, v, rest, hs, rfl⟩ | ⟨rest, hs, rfl⟩ | ⟨u, hu, hstep⟩ := step_cases h
  · exact .inl (hostRead_sameRegisters off bytes { s with schedule := rest })
  · obtain ⟨-, hw⟩ | ⟨r, -, -, hw⟩ | ⟨r, hr, hb, hw⟩ := hostWrite_cases off bytes v { s with schedule := rest }
    · exact .inl (hw ▸ rfl)
    · exact .inl (hw ▸ rfl)
    · obtain ⟨rfl, rfl⟩ := Reg.reached_eq_some.1 hr
      exact .inr (.inr (.inl ⟨r, v, rest, hb, hs, hw⟩))
  · exact .inr (.inl ⟨.inl ⟨rest, hs⟩, rfl⟩)
  · have hturn : EngineHasTheTurn s := hu.imp (·.1) fun ⟨rest, hs, _⟩ => ⟨rest, hs⟩
    obtain ⟨turns, rfl⟩ : ∃ turns, u = { s with schedule := turns } := by
      obtain ⟨-, rfl⟩ | ⟨rest, -, rfl⟩ := hu
      · exact ⟨u.schedule, rfl⟩
      · exact ⟨rest, rfl⟩
    obtain ⟨-, rfl⟩ | ⟨hb, hc⟩ := hstep
    · exact .inl rfl
    · obtain ⟨i, hi, he⟩ | ⟨e, -, he⟩ := complete_cases { s with schedule := turns } <;> rw [he] at hc
      · have hcmd : s.curCmd = encode i := decode_eq_ok_iff.1 hi
        by_cases hwipe : i = .wipe
        · subst hwipe
          cases hc
          exact .inr (.inl ⟨.inr ⟨hb, hturn, hcmd⟩, rfl⟩)
        · exact .inr (.inr (.inr (.inr ⟨i, turns, hb, hturn, hwipe, hcmd, hc⟩)))
      · cases hc
        exact .inr (.inr (.inr (.inl ⟨turns, rfl⟩)))

/-- Issuing a command touches CUR_CMD and STATUS only (R63). -/
theorem acceptCommand_frame (w : Word) (s : State) :
    acceptCommand w s =
      { s with curCmd := (acceptCommand w s).curCmd, status := (acceptCommand w s).status } := by
  obtain ⟨-, h⟩ | ⟨-, -, -, h⟩ | ⟨-, -, h⟩ := acceptCommand_cases w s <;> rw [h]

/-- A host write to any register, CMD included, leaves the results alone that the host cannot write (R47). -/
theorem writeReg_results (r : Reg) (v : Word) (s : State) :
    (writeReg r v s).keyLen = s.keyLen ∧ (writeReg r v s).key = s.key ∧ (writeReg r v s).binary = s.binary ∧
    (writeReg r v s).code = s.code ∧ (writeReg r v s).codeStr = s.codeStr := by
  by_cases hr : r = .cmd
  · subst hr
    rw [writeReg, acceptCommand_frame]
    exact ⟨rfl, rfl, rfl, rfl, rfl⟩
  · obtain ⟨-, -, hlen, -, hbin, hcode, hkey, hstr, -⟩ := writeReg_frame r v s hr
    exact ⟨hlen, hkey, hbin, hcode, hstr⟩

/-- What the completion step of a command can do to BINARY, CODE and CODE_STR: leave them, clear them, or truncate a
digest. -/
theorem exec_code {i : Instr} {s t : State} (h : exec i s = .next t) :
    (t.binary = s.binary ∧ t.code = s.code ∧ t.codeStr = s.codeStr) ∨ (i = .wipe ∧ t = clearBlock s) ∨
    (∃ d u, t = finish (withCode d u)) := by
  cases i with
  | decode =>
    simp only [exec, execDecode] at h
    split at h <;> cases h <;> exact .inl ⟨rfl, rfl, rfl⟩
  | counter =>
    simp only [exec, execCounter] at h
    split at h
    · cases h; exact .inl ⟨rfl, rfl, rfl⟩
    · split at h <;> cases h <;> exact .inl ⟨rfl, rfl, rfl⟩
  | hmac => cases h; exact .inl ⟨rfl, rfl, rfl⟩
  | trunc => cases h; exact .inr (.inr ⟨_, _, rfl⟩)
  | generate =>
    simp only [exec, execGenerate] at h
    split at h
    · cases h; exact .inl ⟨rfl, rfl, rfl⟩
    · split at h <;> cases h
      · exact .inl ⟨rfl, rfl, rfl⟩
      · exact .inr (.inr ⟨_, _, rfl⟩)
  | remain =>
    simp only [exec, execRemain] at h
    split at h <;> cases h <;> exact .inl ⟨rfl, rfl, rfl⟩
  | wipe => cases h; exact .inr (.inl ⟨rfl, rfl⟩)

end Sys2Proof.Machine
end

section
/-! PROOFS. The length of a decoded Secret (spec/40_base32_decode.md R84) and of the Secret itself (spec/10_state.md R22). -/

namespace Sys2Proof.Machine

/-- The loop of R82 gives one byte for every full eight bits, those it starts with included. -/
theorem length_b32loop (vs : List (BitVec 5)) (acc nbits : Nat) (h : nbits < 8) :
    (b32loop acc nbits vs).length = (nbits + 5 * vs.length) / 8 := by
  induction vs generalizing acc nbits with
  | nil => simp; omega
  | cons v vs ih =>
    rw [b32loop_cons]
    split
    · rw [List.length_cons, ih _ _ (by omega), List.length_cons]; omega
    · rw [ih _ _ (by omega), List.length_cons]; omega

theorem length_b32decode (text : List Byte) : (b32decode text).length = 5 * (b32values text).length / 8 := by
  rw [b32decode, length_b32loop _ _ _ (by decide), Nat.zero_add]

/-- A text the buffer can hold decodes to a key the buffer can hold (R84). -/
theorem length_b32decode_le {text : List Byte} (h : text.length ≤ Config.secretMax) :
    (b32decode text).length ≤ Config.keyMax := by
  have hvalues : (b32values text).length ≤ text.length := List.length_filterMap_le _ _
  rw [length_b32decode]
  simp only [Config.secretMax, Config.keyMax] at *
  omega

theorem length_secretText_le (s : State) : (secretText s).length ≤ Config.secretMax := by
  simp [secretText]

/-- KEYLEN holds the length of a decoded Secret without loss. -/
theorem toNat_length_b32decode_secretText (s : State) :
    (BitVec.ofNat 32 (b32decode (secretText s)).length).toNat = (b32decode (secretText s)).length := by
  have hlen := length_b32decode_le (length_secretText_le s)
  simp only [Config.keyMax] at hlen
  exact BitVec.toNat_ofNat _ 32 ▸ Nat.mod_eq_of_lt (by omega)

end Sys2Proof.Machine
end

section
/-! PROOFS. The relations of `State.Inv` in three independent parts, each a relation among a few registers: STATUS with
CUR_CMD (R13, R190), KEY with KEYLEN (R18, R23), BINARY with CODE and CODE_STR (R20, R21, R26). Each write to the registers
of a part keeps that part. -/

namespace Sys2Proof.Machine

/-- The relations among the flags and CUR_CMD (R13, R190). -/
structure FlagRelations (f : Status) (w : Word) : Prop where
  done_alone : f.done = true → f.busy = false ∧ f.fault = false
  busy_in_fault : f.busy = true → f.fault = true → w = encode .wipe
  fcode_clear : f.fault = false → f.fcode = 0
  fcode_named : f.fault = true → ∃ c : FaultCode, f.fcode = c.bits

/-- The relations between KEY and KEYLEN (R18, R23). -/
structure KeyRelations (key : Vector Byte 80) (len : Word) : Prop where
  keyLen_le : len.toNat ≤ Config.keyMax
  key_tail : ∀ j, len.toNat ≤ j → byteAt key j = 0

/-- The relations among BINARY, CODE and CODE_STR (R20, R21, R26). -/
structure CodeRelations (b n : Word) (str : Vector Byte 6) : Prop where
  binary_lt : b.toNat < 2 ^ 31
  code_eq : n.toNat = b.toNat % Config.modulus
  codeStr_eq : str = bufOf 6 (codeStrOf n.toNat) ∨ (str = Vector.replicate 6 0 ∧ b = 0)

/-- The invariant is its three parts. -/
theorem State.inv_iff (s : State) :
    s.Inv ↔ FlagRelations s.status s.curCmd ∧ KeyRelations s.key s.keyLen ∧ CodeRelations s.binary s.code s.codeStr :=
  ⟨fun ⟨hdone, hbusy, hclear, hnamed, hlen, htail, hbin, hcode, hstr⟩ =>
    ⟨⟨hdone, hbusy, hclear, hnamed⟩, ⟨hlen, htail⟩, ⟨hbin, hcode, hstr⟩⟩,
   fun ⟨⟨hdone, hbusy, hclear, hnamed⟩, ⟨hlen, htail⟩, ⟨hbin, hcode, hstr⟩⟩ =>
    ⟨hdone, hbusy, hclear, hnamed, hlen, htail, hbin, hcode, hstr⟩⟩

/-- The invariant speaks of registers only. -/
theorem SameRegisters.inv_iff {s t : State} (h : SameRegisters s t) : t.Inv ↔ s.Inv := by
  rw [State.inv_iff, State.inv_iff, h.status, h.curCmd, h.key, h.keyLen, h.binary, h.code, h.codeStr]

theorem FlagRelations.reset : FlagRelations Status.reset 0 := ⟨nofun, nofun, fun _ => rfl, nofun⟩

theorem FlagRelations.faulted (c : FaultCode) (w : Word) : FlagRelations (Status.faulted c) w :=
  ⟨nofun, nofun, nofun, fun _ => ⟨c, rfl⟩⟩

/-- A completion without a fault keeps the flag relations where no fault was recorded (R64). -/
theorem FlagRelations.completed {f : Status} {w : Word} (h : FlagRelations f w) (hfault : f.fault = false) :
    FlagRelations f.completed w :=
  ⟨fun _ => ⟨rfl, hfault⟩, nofun, h.fcode_clear, h.fcode_named⟩

/-- Issuing a command keeps the flag relations: what is accepted while a fault is recorded is WIPE (R63). -/
theorem FlagRelations.acceptCommand {s : State} (v : Word) (h : FlagRelations s.status s.curCmd) :
    FlagRelations (acceptCommand v s).status (acceptCommand v s).curCmd := by
  obtain ⟨-, ha⟩ | ⟨-, -, -, ha⟩ | ⟨-, hwipe, ha⟩ := acceptCommand_cases v s <;> rw [ha]
  · exact h
  · exact h
  · exact ⟨nofun, fun _ => hwipe, h.fcode_clear, h.fcode_named⟩

/-- A host write keeps the flag relations: CMD is the only register that reaches them (R47). -/
theorem FlagRelations.writeReg {s : State} (r : Reg) (v : Word) (h : FlagRelations s.status s.curCmd) :
    FlagRelations (writeReg r v s).status (writeReg r v s).curCmd := by
  by_cases hr : r = .cmd
  · subst hr
    exact h.acceptCommand v
  · obtain ⟨hstatus, hcmd, -⟩ := writeReg_frame r v s hr
    rwa [hstatus, hcmd]

/-- The completion of a command other than WIPE keeps the flag relations: it was accepted with no fault recorded, or it
records one now. -/
theorem FlagRelations.exec {i : Instr} {s t : State} (he : exec i s = .next t) (hwipe : i ≠ .wipe)
    (hcmd : s.curCmd = encode i) (hbusy : s.status.busy = true) (h : FlagRelations s.status s.curCmd) :
    FlagRelations t.status t.curCmd := by
  have hfault : s.status.fault = false := Bool.eq_false_iff.2 fun hf => hwipe <| by
    have hw := decode_eq_ok_iff.2 (h.busy_in_fault hbusy hf)
    rw [decode_eq_ok_iff.2 hcmd] at hw
    exact Except.ok.inj hw
  obtain ⟨c, hx⟩ | ⟨-, u, hx, hu⟩ | ⟨hw, -⟩ := exec_cases i s
  · cases he.symm.trans hx
    exact .faulted c _
  · cases he.symm.trans hx
    rw [finish_status, finish_curCmd, hu.status, hu.curCmd]
    exact h.completed hfault
  · exact absurd hw hwipe

/-- A KEY filled from a byte sequence that fits, with KEYLEN its length. -/
theorem KeyRelations.bufOf {k : List Byte} {len : Word} (hlen : len.toNat = k.length) (hk : k.length ≤ Config.keyMax) :
    KeyRelations (bufOf 80 k) len where
  keyLen_le := hlen ▸ hk
  key_tail j hj := by
    rw [hlen] at hj
    simp [List.getD_eq_getElem?_getD, hj]

/-- The cleared KEY is the empty byte sequence. -/
theorem replicate_zero_eq_bufOf_nil (n : Nat) : Vector.replicate n (0 : Byte) = bufOf n [] :=
  Vector.ext fun i hi => by simp [bufOf]

theorem KeyRelations.reset : KeyRelations (Vector.replicate 80 0) 0 :=
  replicate_zero_eq_bufOf_nil 80 ▸ .bufOf rfl (Nat.zero_le _)

/-- The completion of a command other than WIPE keeps the relations of KEY and KEYLEN. -/
theorem KeyRelations.exec {i : Instr} {s t : State} (he : exec i s = .next t) (hwipe : i ≠ .wipe)
    (h : KeyRelations s.key s.keyLen) : KeyRelations t.key t.keyLen := by
  obtain ⟨hkey, hlen⟩ | ⟨hw, -⟩ | ⟨-, -, hkey, hlen⟩ := exec_key i s t he
  · rwa [hkey, hlen]
  · exact absurd hw hwipe
  · rw [hkey, hlen]
    exact .bufOf (toNat_length_b32decode_secretText s) (length_b32decode_le (length_secretText_le s))

theorem CodeRelations.reset : CodeRelations 0 0 (Vector.replicate 6 0) := ⟨by decide, rfl, .inr ⟨rfl, rfl⟩⟩

/-- The truncation of a digest gives related BINARY, CODE and CODE_STR (R154). -/
theorem CodeRelations.withCode (d : List Byte) (s : State) :
    CodeRelations (withCode d s).binary (withCode d s).code (withCode d s).codeStr := by
  refine ⟨dtBinary_lt d, toNat_code _, .inl ?_⟩
  rw [withCode_codeStr, withCode_code, toNat_code]

/-- The completion of a command other than WIPE keeps the relations of BINARY, CODE and CODE_STR. -/
theorem CodeRelations.exec {i : Instr} {s t : State} (he : exec i s = .next t) (hwipe : i ≠ .wipe)
    (h : CodeRelations s.binary s.code s.codeStr) : CodeRelations t.binary t.code t.codeStr := by
  obtain ⟨hbin, hcode, hstr⟩ | ⟨hw, -⟩ | ⟨d, u, rfl⟩ := exec_code he
  · rwa [hbin, hcode, hstr]
  · exact absurd hw hwipe
  · exact .withCode d u

/-- Settles O56, part by part. -/
theorem resetHasTheRegisterRelations : Obligations.ResetHasTheRegisterRelations :=
  State.reset.inv_iff.2 ⟨.reset, .reset, .reset⟩

/-- Settles O57: whatever a step does to the registers keeps each of the three parts of the invariant. -/
theorem stepKeepsTheRegisterRelations : Obligations.StepKeepsTheRegisterRelations := by
  unfold Obligations.StepKeepsTheRegisterRelations
  intro s t hinv h
  obtain ⟨hflags, hkeys, hcodes⟩ := s.inv_iff.1 hinv
  obtain hsame | ⟨-, hreset⟩ | ⟨r, v, rest, -, -, rfl⟩ | ⟨turns, rfl⟩ | ⟨i, turns, hbusy, -, hwipe, hcmd, he⟩ :=
    step_register_cases h
  · exact hsame.inv_iff.2 hinv
  · exact hreset.inv_iff.2 resetHasTheRegisterRelations
  · obtain ⟨hlen, hkey, hbin, hcode, hstr⟩ := writeReg_results r v { s with schedule := rest }
    refine (State.inv_iff _).2 ⟨hflags.writeReg (s := { s with schedule := rest }) r v, ?_, ?_⟩
    · rwa [answer_key, answer_keyLen, hkey, hlen]
    · rwa [answer_binary, answer_code, answer_codeStr, hbin, hcode, hstr]
  · exact (State.inv_iff _).2 ⟨.faulted .badCmd _, hkeys, hcodes⟩
  · exact t.inv_iff.2 ⟨.exec he hwipe hcmd hbusy hflags, .exec he hwipe hkeys, .exec he hwipe hcodes⟩

end Sys2Proof.Machine
end

section
/-! PROOFS. Where the inputs of a command come from (spec/10_state.md R10, R11). -/

namespace Sys2Proof.Machine

/-- `t` holds what `s` holds in every register that only the host gives a value to: TIME_MS, PERIOD, SECRET_LEN, SECRET. -/
structure SameInputs (s t : State) : Prop where
  timeMs : t.timeMs = s.timeMs
  period : t.period = s.period
  secretLen : t.secretLen = s.secretLen
  secret : t.secret = s.secret

theorem SameRegisters.sameInputs {s t : State} (h : SameRegisters s t) : SameInputs s t :=
  ⟨h.timeMs, h.period, h.secretLen, h.secret⟩

/-- No command but WIPE writes an input. -/
theorem exec_sameInputs {i : Instr} {s t : State} (he : exec i s = .next t) (hwipe : i ≠ .wipe) : SameInputs s t := by
  obtain ⟨c, hx⟩ | ⟨-, u, hx, hu⟩ | ⟨hw, -⟩ := exec_cases i s
  · cases he.symm.trans hx
    exact ⟨rfl, rfl, rfl, rfl⟩
  · cases he.symm.trans hx
    exact ⟨hu.timeMs, hu.period, hu.secretLen, hu.secret⟩
  · exact absurd hw hwipe

theorem acceptCommand_sameInputs (w : Word) (s : State) : SameInputs s (acceptCommand w s) := by
  rw [acceptCommand_frame]
  exact ⟨rfl, rfl, rfl, rfl⟩

/-! A host write to another register leaves an input alone: one lemma per input. -/

section
variable {r : Reg} (v : Word) (s : State)

theorem writeReg_lowWord (h : r ≠ .timeMsLo) : lowWord (writeReg r v s).timeMs = lowWord s.timeMs := by
  cases r with
  | cmd => exact congrArg lowWord (acceptCommand_sameInputs v s).timeMs
  | timeMsLo => exact absurd rfl h
  | timeMsHi => exact lowWord_joinWords _ _
  | _ => simp only [writeReg]

theorem writeReg_highWord (h : r ≠ .timeMsHi) : highWord (writeReg r v s).timeMs = highWord s.timeMs := by
  cases r with
  | cmd => exact congrArg highWord (acceptCommand_sameInputs v s).timeMs
  | timeMsLo => exact highWord_joinWords _ _
  | timeMsHi => exact absurd rfl h
  | _ => simp only [writeReg]

theorem writeReg_period (h : r ≠ .period) : (writeReg r v s).period = s.period := by
  cases r with
  | cmd => exact (acceptCommand_sameInputs v s).period
  | period => exact absurd rfl h
  | _ => simp only [writeReg]

theorem writeReg_secretLen (h : r ≠ .secretLen) : (writeReg r v s).secretLen = s.secretLen := by
  cases r with
  | cmd => exact (acceptCommand_sameInputs v s).secretLen
  | secretLen => exact absurd rfl h
  | _ => simp only [writeReg]

/-- A byte of SECRET is written only by a write to the word that holds it (R43). -/
theorem writeReg_secretByte (i : Nat) (h : ∀ j : Fin 32, i / 4 = j.val → r ≠ .secret j) :
    byteAt (writeReg r v s).secret i = byteAt s.secret i := by
  cases r with
  | cmd => exact congrArg (byteAt · i) (acceptCommand_sameInputs v s).secret
  | secret j =>
    have hj : ¬ (i < 128 ∧ i / 4 = j.val) := fun hi => h j hi.2 rfl
    rw [writeReg, byteAt_setWord, if_neg hj]
  | _ => simp only [writeReg]

end

/-- Whatever is read off the inputs alone and off only one register of the window, the one at `off`, changes in a step only
by a host write there or with the block. -/
theorem step_changes_input {α : Type} (f : State → α) (off : Nat) (hf : ∀ s t, SameInputs s t → f t = f s)
    (hwrite : ∀ r v s, r.offset ≠ off → f (writeReg r v s) = f s) {s t : State} (h : step s = .next t)
    (hne : f t ≠ f s) : HostWritesAt off s ∨ ClearsTheBlock s := by
  obtain hsame | ⟨hclear, -⟩ | ⟨r, v, rest, hidle, hs, rfl⟩ | ⟨turns, rfl⟩ | ⟨i, turns, -, -, hwipe, -, he⟩ :=
    step_register_cases h
  · exact absurd (hf s t hsame.sameInputs) hne
  · exact .inr hclear
  · by_cases hr : r.offset = off
    · subst hr
      exact .inl ⟨hidle, v, rest, hs⟩
    · refine absurd ?_ hne
      calc f (answer .ok (writeReg r v { s with schedule := rest }))
          = f (writeReg r v { s with schedule := rest }) := hf _ _ ⟨rfl, rfl, rfl, rfl⟩
        _ = f { s with schedule := rest } := hwrite r v _ hr
        _ = f s := hf _ _ ⟨rfl, rfl, rfl, rfl⟩
  · exact (hne (hf s _ ⟨rfl, rfl, rfl, rfl⟩)).elim
  · obtain ⟨htime, hperiod, hlen, hsecret⟩ := exec_sameInputs he hwipe
    exact absurd (hf s t ⟨htime, hperiod, hlen, hsecret⟩) hne

/-- Settles O54: each input is read off one register of the window, and a write elsewhere leaves it. -/
theorem inputsChangeOnlyByHostWriteWipeOrReset : Obligations.InputsChangeOnlyByHostWriteWipeOrReset := by
  unfold Obligations.InputsChangeOnlyByHostWriteWipeOrReset
  intro s t h
  simp only [← toNat_lowWord, ← toNat_highWord]
  refine ⟨?_, ?_, ?_, ?_, fun i => ?_⟩
  · exact step_changes_input (fun s => (lowWord s.timeMs).toNat) _ (fun _ _ hin => by rw [hin.timeMs])
      (fun r v s hr => by rw [writeReg_lowWord v s (by rintro rfl; exact hr rfl)]) h
  · exact step_changes_input (fun s => (highWord s.timeMs).toNat) _ (fun _ _ hin => by rw [hin.timeMs])
      (fun r v s hr => by rw [writeReg_highWord v s (by rintro rfl; exact hr rfl)]) h
  · exact step_changes_input State.period _ (fun _ _ hin => hin.period)
      (fun r v s hr => writeReg_period v s (by rintro rfl; exact hr rfl)) h
  · exact step_changes_input State.secretLen _ (fun _ _ hin => hin.secretLen)
      (fun r v s hr => writeReg_secretLen v s (by rintro rfl; exact hr rfl)) h
  · exact step_changes_input (fun s => byteAt s.secret i) _ (fun _ _ hin => by rw [hin.secret])
      (fun r v s hr => writeReg_secretByte v s i (by rintro j hj rfl; exact hr (by rw [hj, Reg.offset]))) h

end Sys2Proof.Machine
end

section
/-! PROOFS. Where a key comes from (spec/10_state.md R23). -/

namespace Sys2Proof.Machine

/-- Being the decoding of a text is a matter of KEY and KEYLEN alone. -/
theorem State.KeyDecoded.congr {s t : State} (h : s.KeyDecoded) (hkey : t.key = s.key) (hlen : t.keyLen = s.keyLen) :
    t.KeyDecoded := by
  unfold State.KeyDecoded
  rwa [hkey, hlen]

/-- Settles O58, with the empty text. -/
theorem resetKeyIsADecodedSecret : Obligations.ResetKeyIsADecodedSecret :=
  ⟨[], Nat.zero_le _, replicate_zero_eq_bufOf_nil 80, rfl⟩

/-- The step from `s` to `t` completes DECODE or GENERATE and takes in the decoded Secret (R85, R165). -/
def TakesInTheSecret (s t : State) : Prop :=
  s.status.busy = true ∧ EngineHasTheTurn s ∧ (s.curCmd = 0x00000001 ∨ s.curCmd = 0x00000005) ∧
    s.secretLen.toNat ≤ 128 ∧ t.key = bufOf 80 (b32decode (secretText s)) ∧
    t.keyLen.toNat = (b32decode (secretText s)).length

/-- Everything a step can do to KEY and KEYLEN: leave them, clear them with the block, or take in the decoded Secret. -/
theorem step_key {s t : State} (h : step s = .next t) :
    (t.key = s.key ∧ t.keyLen = s.keyLen) ∨
    (ClearsTheBlock s ∧ t.key = Vector.replicate 80 0 ∧ t.keyLen = 0) ∨ TakesInTheSecret s t := by
  obtain hsame | ⟨hclear, hreset⟩ | ⟨r, v, rest, -, -, rfl⟩ | ⟨turns, rfl⟩ | ⟨i, turns, hbusy, hturn, hwipe, hcmd, he⟩ :=
    step_register_cases h
  · exact .inl ⟨hsame.key, hsame.keyLen⟩
  · exact .inr (.inl ⟨hclear, hreset.key, hreset.keyLen⟩)
  · obtain ⟨hlen, hkey, -⟩ := writeReg_results r v { s with schedule := rest }
    exact .inl ⟨hkey, hlen⟩
  · exact .inl ⟨rfl, rfl⟩
  · obtain hkept | ⟨hw, -⟩ | ⟨hi, hmax, hkey, hlen⟩ := exec_key i _ t he
    · exact .inl hkept
    · exact absurd hw hwipe
    · have hword : s.curCmd = 0x00000001 ∨ s.curCmd = 0x00000005 := by
        obtain rfl | rfl := hi
        · exact .inl hcmd
        · exact .inr hcmd
      exact .inr (.inr ⟨hbusy, hturn, hword, hmax, hkey, hlen ▸ toNat_length_b32decode_secretText s⟩)

/-- Settles O59: the ways of `step_key`, each of which leaves a decoded key. -/
theorem stepKeepsTheKeyADecodedSecret : Obligations.StepKeepsTheKeyADecodedSecret := by
  unfold Obligations.StepKeepsTheKeyADecodedSecret
  intro s t h
  refine ⟨step_key h, fun hs => ?_⟩
  obtain ⟨hkey, hlen⟩ | ⟨-, hkey, hlen⟩ | ⟨-, -, -, -, hkey, hlen⟩ := step_key h
  · exact hs.congr hkey hlen
  · exact State.KeyDecoded.congr resetKeyIsADecodedSecret hkey hlen
  · exact ⟨secretText s, length_secretText_le s, hkey, hlen⟩

end Sys2Proof.Machine
end

section
/-! PROOFS. The single facts of spec/10_state.md: the idle engine (R10), the word STATUS (R13), the reset values (R30). -/

namespace Sys2Proof.Machine

/-- Settles O10: either way the step is an engine's turn that is not enabled. -/
theorem idleEngineChangesNothing : Obligations.IdleEngineChangesNothing := by
  unfold Obligations.IdleEngineChangesNothing
  intro s hidle
  refine ⟨fun hs => ?_, fun rest hs => ?_⟩
  · rw [step, hs]
    exact engineTurn_of_idle hidle
  · rw [step, hs]
    exact engineTurn_of_idle (s := { s with schedule := rest }) hidle

/-- STATUS bit by bit, from the right end of the concatenation: BUSY, DONE, FAULT, a zero, FCODE, zeros (R13). -/
theorem Status.getLsbD_word (f : Status) (i : Nat) :
    f.word.getLsbD i = match i with
      | 0 => f.busy
      | 1 => f.done
      | 2 => f.fault
      | 3 => false
      | k + 4 => f.fcode.getLsbD k := by
  unfold Status.word
  simp only [BitVec.getLsbD_append]
  match i with
  | 0 | 1 | 2 | 3 => simp
  | k + 4 => simpa using BitVec.lt_of_getLsbD

/-- Settles O14: each field is the bits `Status.getLsbD_word` gives it. -/
theorem statusWordHasTheBitsOfTheTable : Obligations.StatusWordHasTheBitsOfTheTable := by
  unfold Obligations.StatusWordHasTheBitsOfTheTable
  intro f
  refine ⟨f.getLsbD_word 0, f.getLsbD_word 1, f.getLsbD_word 2, f.getLsbD_word 3, ?_, ?_⟩
  · refine BitVec.eq_of_getLsbD_eq fun i hi => ?_
    simp [hi, Nat.add_comm 4 i, Status.getLsbD_word]
  · refine BitVec.eq_of_getLsbD_eq fun i hi => ?_
    simp [hi, Nat.add_comm 8 i, Status.getLsbD_word]

/-- Settles O49: both clearing steps are `clearBlock`, and State.reset holds the values of R30. -/
theorem resetAndWipeLeaveTheResetValues : Obligations.ResetAndWipeLeaveTheResetValues := by
  unfold Obligations.ResetAndWipeLeaveTheResetValues
  refine ⟨fun s rest hs => ?_, fun s => rfl, rfl, rfl, rfl, rfl, rfl, rfl, rfl, rfl, rfl, rfl, rfl, ?_⟩
  · rw [step, hs]
    rfl
  · exact ⟨rfl, rfl, rfl, rfl, rfl⟩

end Sys2Proof.Machine
end

section
/-! PROOFS. The register window: which offsets are defined (spec/20_memory.md R42, R48), and what a transaction at the
offset of a register answers and does (R46, R47, R49). -/

namespace Sys2Proof.Machine

/-- What R48 asks of a transaction, as arithmetic on its offset and width. -/
theorem accessOk_iff {off bytes : Nat} :
    accessOk off bytes = true ↔ bytes = 4 ∧ off % 4 = 0 ∧
      (off < 0x038 ∨ 0x040 ≤ off) ∧ (off < 0x054 ∨ 0x080 ≤ off) ∧ (off < 0x0D0 ∨ 0x100 ≤ off) ∧ off < 0x180 := by
  simp only [accessOk, alignedOk, widthOk, insideOk, definedOk, Bool.and_eq_true, Bool.not_eq_true', Bool.or_eq_false_iff,
    decide_eq_true_eq, decide_eq_false_iff_not, Config.window]
  omega

/-- The offset of a register passes the checks of R48. -/
theorem accessOk_offset (r : Reg) : accessOk r.offset 4 = true := by
  cases r with
  | msg | codeStr | digest | key | secret =>
    rw [accessOk_iff, Reg.offset]
    omega
  | _ => rfl

/-- A transaction that passes the checks of R48 is at the offset of a register: one of the eight words before MSG, the two
between MSG and CODE_STR, or the word of a buffer counted from the buffer's base. -/
theorem exists_offset_of_accessOk {off bytes : Nat} (h : accessOk off bytes = true) : ∃ r : Reg, off = r.offset := by
  obtain ⟨-, halign, h038, h054, h0D0, hend⟩ := accessOk_iff.1 h
  obtain ⟨k, rfl⟩ : ∃ k, off = 4 * k := ⟨off / 4, by omega⟩
  have hword : k = 0 ∨ k = 1 ∨ k = 2 ∨ k = 3 ∨ k = 4 ∨ k = 5 ∨ k = 6 ∨ k = 7 ∨ k = 10 ∨ k = 11 ∨
      (8 ≤ k ∧ k < 8 + 2) ∨ (12 ≤ k ∧ k < 12 + 2) ∨ (16 ≤ k ∧ k < 16 + 5) ∨ (32 ≤ k ∧ k < 32 + 20) ∨
      (64 ≤ k ∧ k < 64 + 32) := by omega
  obtain rfl | rfl | rfl | rfl | rfl | rfl | rfl | rfl | rfl | rfl | hmsg | hstr | hdigest | hkey | hsecret := hword
  · exact ⟨.cmd, rfl⟩
  · exact ⟨.status, rfl⟩
  · exact ⟨.timeMsLo, rfl⟩
  · exact ⟨.timeMsHi, rfl⟩
  · exact ⟨.period, rfl⟩
  · exact ⟨.secretLen, rfl⟩
  · exact ⟨.keyLen, rfl⟩
  · exact ⟨.remaining, rfl⟩
  · exact ⟨.binary, rfl⟩
  · exact ⟨.code, rfl⟩
  · exact ⟨.msg ⟨k - 8, by omega⟩, by simp only [Reg.offset]; omega⟩
  · exact ⟨.codeStr ⟨k - 12, by omega⟩, by simp only [Reg.offset]; omega⟩
  · exact ⟨.digest ⟨k - 16, by omega⟩, by simp only [Reg.offset]; omega⟩
  · exact ⟨.key ⟨k - 32, by omega⟩, by simp only [Reg.offset]; omega⟩
  · exact ⟨.secret ⟨k - 64, by omega⟩, by simp only [Reg.offset]; omega⟩

/-- The checks of R48 pass exactly for the transactions that reach a register. -/
theorem accessOk_iff_reached {off bytes : Nat} : accessOk off bytes = true ↔ ∃ r, Reg.reached off bytes = some r := by
  simp only [Reg.reached_eq_some]
  constructor
  · intro h
    obtain ⟨r, hr⟩ := exists_offset_of_accessOk h
    exact ⟨r, (accessOk_iff.1 h).1, hr⟩
  · rintro ⟨r, rfl, rfl⟩
    exact accessOk_offset r

/-- A transaction that fails the checks of R48 reaches no register. -/
theorem reached_eq_none_of_not_accessOk {off bytes : Nat} (h : ¬ accessOk off bytes = true) :
    Reg.reached off bytes = none :=
  Option.eq_none_iff_forall_ne_some.2 fun r hr => h (accessOk_iff_reached.2 ⟨r, hr⟩)

section
variable {off bytes : Nat} (r : Reg) (v : Word) {s : State}

theorem hostRead_of_reached_none (h : Reg.reached off bytes = none) : hostRead off bytes s = answer .error s := by
  rw [hostRead, h]

theorem hostWrite_of_reached_none (h : Reg.reached off bytes = none) : hostWrite off bytes v s = answer .error s := by
  rw [hostWrite, h]

/-- A read of a register with BUSY = 0 (R46). -/
theorem hostRead_of_idle (h : s.status.busy = false) : hostRead r.offset 4 s = answer (.okWord (readReg s r)) s := by
  simp [hostRead, h]

/-- STATUS reads as it is, whatever BUSY is (R46, R49). -/
theorem hostRead_status : hostRead Reg.status.offset 4 s = answer (.okWord s.status.word) s := by
  simp [hostRead, readReg]

/-- A read of another register with BUSY = 1 (R49). -/
theorem hostRead_of_busy (h : s.status.busy = true) (hr : r ≠ .status) : hostRead r.offset 4 s =
    answer (.okWord (Config.busyReadWord s.freeReads)) { s with freeReads := s.freeReads + 1 } := by
  simp [hostRead, h, hr]

/-- A write to a register with BUSY = 0 (R47). -/
theorem hostWrite_of_idle (h : s.status.busy = false) : hostWrite r.offset 4 v s = answer .ok (writeReg r v s) := by
  simp [hostWrite, h]

/-- A write to a register with BUSY = 1 (R49). -/
theorem hostWrite_of_busy (h : s.status.busy = true) : hostWrite r.offset 4 v s = answer .ok s := by
  simp [hostWrite, h]

end

end Sys2Proof.Machine
end

section
/-! PROOFS. What a host write of a word leaves in a byte buffer (spec/20_memory.md R43) and in the registers (R44, R47). -/

namespace Sys2Proof.Machine

/-- A buffer reads 0x00 past its end (R43). -/
theorem byteAt_of_le {n : Nat} (b : Vector Byte n) {i : Nat} (h : n ≤ i) : byteAt b i = 0 := by
  simp [byteAt, List.getD_eq_getElem?_getD, h]

/-- The byte of lane `k` of a written word (R43). -/
theorem byteAt_setWord_lane {n : Nat} (b : Vector Byte n) {j k : Nat} (v : Word) (hk : k < 4) (h : 4 * j + k < n) :
    byteAt (setWord b j v) (4 * j + k) = lane v k := by
  have hdiv : (4 * j + k) / 4 = j := by omega
  have hmod : (4 * j + k) % 4 = k := by omega
  rw [byteAt_setWord, if_pos ⟨h, hdiv⟩, hmod]

/-- A byte outside the written word is left alone (R43). -/
theorem byteAt_setWord_outside {n : Nat} (b : Vector Byte n) {i j : Nat} (v : Word) (h : i < 4 * j ∨ 4 * j + 3 < i) :
    byteAt (setWord b j v) i = byteAt b i := by
  rw [byteAt_setWord, if_neg (by omega)]

section
variable {r : Reg} (v : Word) (s : State)

/-- A register the host may write reads back what was written, all 32 bits (R47). -/
theorem readReg_writeReg_same (h : r.access = .rw) : readReg (writeReg r v s) r = v := by
  cases r with
  | timeMsLo => exact lowWord_joinWords _ _
  | timeMsHi => exact highWord_joinWords _ _
  | period | secretLen => rfl
  | msg j => exact wordAt_setWord_same _ _ _ (by omega)
  | digest j => exact wordAt_setWord_same _ _ _ (by omega)
  | secret j => exact wordAt_setWord_same _ _ _ (by omega)
  | _ => cases h

/-- A write to a register other than CMD changes the contents of no other register (R47): TIME_MS keeps the other half, a
buffer its other words. -/
theorem readReg_writeReg_other {r' : Reg} (hne : r' ≠ r) (hcmd : r ≠ .cmd) :
    readReg (writeReg r v s) r' = readReg s r' := by
  cases r with
  | cmd => exact absurd rfl hcmd
  | status | keyLen | remaining | binary | code | codeStr | key => rfl
  | timeMsLo =>
    cases r' with
    | timeMsLo => exact absurd rfl hne
    | timeMsHi => exact highWord_joinWords _ _
    | _ => simp only [writeReg, readReg]
  | timeMsHi =>
    cases r' with
    | timeMsLo => exact lowWord_joinWords _ _
    | timeMsHi => exact absurd rfl hne
    | _ => simp only [writeReg, readReg]
  | period =>
    cases r' with
    | period => exact absurd rfl hne
    | _ => simp only [writeReg, readReg]
  | secretLen =>
    cases r' with
    | secretLen => exact absurd rfl hne
    | _ => simp only [writeReg, readReg]
  | msg j =>
    cases r' with
    | msg k => exact wordAt_setWord_other _ _ _ _ fun hk => hne (congrArg Reg.msg (Fin.ext hk))
    | _ => simp only [writeReg, readReg]
  | digest j =>
    cases r' with
    | digest k => exact wordAt_setWord_other _ _ _ _ fun hk => hne (congrArg Reg.digest (Fin.ext hk))
    | _ => simp only [writeReg, readReg]
  | secret j =>
    cases r' with
    | secret k => exact wordAt_setWord_other _ _ _ _ fun hk => hne (congrArg Reg.secret (Fin.ext hk))
    | _ => simp only [writeReg, readReg]

/-- A write to a register the host may only read is discarded (R47). -/
theorem writeReg_of_ro (h : r.access = .ro) : writeReg r v s = s := by
  cases r with
  | status | keyLen | remaining | binary | code | codeStr | key => rfl
  | _ => cases h

/-- CMD is the register the host may only write (R11). -/
theorem Reg.access_eq_wo_iff : r.access = .wo ↔ r = .cmd := by
  cases r <;> simp [Reg.access]

end

end Sys2Proof.Machine
end

section
/-! PROOFS. The statements about the host port (spec/20_memory.md). -/

namespace Sys2Proof.Machine

/-- Settles O11: the checks of R48 against the lookup, and the table of R42 row by row. -/
theorem accessIsDefinedExactlyWhenItReachesARegister : Obligations.AccessIsDefinedExactlyWhenItReachesARegister := by
  unfold Obligations.AccessIsDefinedExactlyWhenItReachesARegister
  refine ⟨fun off bytes => accessOk_iff_reached, fun off bytes r => Reg.reached_eq_some, fun r => ?_⟩
  cases r <;> exact ⟨rfl, rfl⟩

/-- Settles O12: each condition fails a check of R48, so that the transaction reaches no register. -/
theorem refusedAccessAnswersErrorAndChangesNothing : Obligations.RefusedAccessAnswersErrorAndChangesNothing := by
  unfold Obligations.RefusedAccessAnswersErrorAndChangesNothing
  intro s off bytes v h
  have hnone : Reg.reached off bytes = none :=
    reached_eq_none_of_not_accessOk fun hok => by
      obtain ⟨hwidth, halign, h038, h054, h0D0, hend⟩ := accessOk_iff.1 hok
      omega
  exact ⟨hostRead_of_reached_none hnone, hostWrite_of_reached_none v hnone⟩

/-- Settles O15: by the three access rights, a stored word, a discarded one and an acceptance. -/
theorem idleWriteStoresOrIsDiscarded : Obligations.IdleWriteStoresOrIsDiscarded := by
  unfold Obligations.IdleWriteStoresOrIsDiscarded
  intro s r v hidle
  rw [hostWrite_of_idle r v hidle]
  refine ⟨fun hrw => ?_, fun hro => ?_, fun hwo => ?_⟩
  · have hcmd : r ≠ .cmd := by
      rintro rfl
      cases hrw
    obtain ⟨hstatus, hcur, -, -, -, -, -, -, hscratch, hschedule, hanswers, hfree⟩ := writeReg_frame r v s hcmd
    refine ⟨writeReg r v s, ?_, readReg_writeReg_same v s hrw, fun r' hne => readReg_writeReg_other v s hne hcmd,
      hstatus, hcur, hscratch, hschedule, hanswers, hfree⟩
    rw [answer, hanswers]
  · rw [writeReg_of_ro v s hro, answer]
  · obtain rfl := Reg.access_eq_wo_iff.1 hwo
    rw [writeReg, answer, acceptCommand_frame]
    exact ⟨rfl, rfl⟩

/-- Settles O13. Only the second word of CODE_STR has bytes past the end of its buffer. -/
theorem idleReadAnswersTheContents : Obligations.IdleReadAnswersTheContents := by
  unfold Obligations.IdleReadAnswersTheContents
  intro s hidle
  obtain ⟨-, -, -, hbit3, -, hhigh⟩ := statusWordHasTheBitsOfTheTable s.status
  have h6 : byteAt s.codeStr 6 = 0 := byteAt_of_le _ (by decide)
  have h7 : byteAt s.codeStr 7 = 0 := byteAt_of_le _ (by decide)
  have hcodeStr1 : readReg s (.codeStr 1) = joinBytes (byteAt s.codeStr 4) (byteAt s.codeStr 5) 0 0 := by
    rw [readReg, wordAt_eq]
    exact congrArg₂ (joinBytes _ _) h6 h7
  exact ⟨fun r => hostRead_of_idle r hidle, rfl, rfl, hbit3, hhigh, toNat_lowWord s.timeMs, toNat_highWord s.timeMs,
    rfl, rfl, rfl, rfl, rfl, rfl, fun j => wordAt_eq s.msg j, wordAt_eq s.codeStr 0, hcodeStr1,
    fun j => wordAt_eq s.digest j, fun j => wordAt_eq s.secret j, fun j => wordAt_eq s.key j⟩

/-- Settles O16. -/
theorem busyAccessesAreUnspecifiedOrDiscarded : Obligations.BusyAccessesAreUnspecifiedOrDiscarded := by
  unfold Obligations.BusyAccessesAreUnspecifiedOrDiscarded
  intro s r v hbusy
  exact ⟨hostRead_status, hostRead_of_busy r hbusy, hostWrite_of_busy r v hbusy⟩

/-- Settles O17: the four lanes of the word, most significant first, and the bytes outside it. -/
theorem bufferWordIsMostSignificantByteFirst : Obligations.BufferWordIsMostSignificantByteFirst := by
  unfold Obligations.BufferWordIsMostSignificantByteFirst
  intro n b j v h
  refine ⟨?_, ?_, ?_, ?_, fun i hi => byteAt_setWord_outside b v hi, wordAt_setWord_same b j v h⟩
  · exact byteAt_setWord_lane b v (k := 0) (by omega) (by omega)
  · exact byteAt_setWord_lane b v (k := 1) (by omega) (by omega)
  · exact byteAt_setWord_lane b v (k := 2) (by omega) (by omega)
  · exact byteAt_setWord_lane b v (k := 3) (by omega) h

/-- Settles O18: a write joins the new half with the kept one, and each half is read back from the join. -/
theorem timeIsWrittenInTwoHalves : Obligations.TimeIsWrittenInTwoHalves := by
  unfold Obligations.TimeIsWrittenInTwoHalves
  refine ⟨rfl, rfl, fun s lo hi => ⟨toNat_lowWord _, toNat_highWord _, ?_, ?_, ?_, ?_⟩⟩
  · rw [writeReg, toNat_joinWords, toNat_highWord]
  · rw [writeReg, toNat_joinWords, toNat_lowWord]
  · simp only [writeReg, lowWord_joinWords, toNat_joinWords]
  · simp only [writeReg, lowWord_joinWords, highWord_joinWords]

end Sys2Proof.Machine
end

section
/-! PROOFS. Legal and illegal command words (spec/30_encoding.md R60, R62, R65), and the acceptance of a word (R63). -/

namespace Sys2Proof

/-- Settles O1: the first clause is `decode_eq_ok_iff`, and the words are computed. -/
theorem decodeSelectsExactlyTheCommandWord : Obligations.DecodeSelectsExactlyTheCommandWord :=
  ⟨fun _ _ => decode_eq_ok_iff, rfl, rfl, rfl, rfl, rfl, rfl, rfl⟩

/-- A 32-bit table word is the value written to CMD as it is (R60). -/
theorem tableWord_toNat (w : Word) : tableWord 32 w.toNat = w := by
  rw [tableWord, Nat.mod_eq_of_lt w.isLt, BitVec.ofNat_toNat, BitVec.setWidth_eq]

/-- A table word of 32 bits is read as the decoder reads its value. -/
theorem decodeTableWord_toNat (w : Word) : decodeTableWord 32 w.toNat = (decode w).toOption := by
  rw [decodeTableWord, if_pos (Nat.mod_lt _ (by decide)), tableWord_toNat]
  cases decode w <;> rfl

/-- The table word of a command is read as that command. -/
theorem decodeTableWord_encode (i : Instr) : decodeTableWord 32 (encode i).toNat = some i := by
  rw [decodeTableWord_toNat, decode_eq_ok_iff.2 rfl]
  rfl

/-- A word with `zero` = 0 and an assigned opcode is the word of a command, and no other word is (R62, R65). -/
theorem commandWordOk_iff {w : Word} : commandWordOk w = true ↔ ∃ i, w = encode i := by
  constructor
  · intro h
    have hrange : 1 ≤ w.toNat ∧ w.toNat ≤ 7 := by
      simp only [commandWordOk, zeroFieldOk, opcodeOk, Bool.and_eq_true, decide_eq_true_eq] at h
      omega
    obtain h1 | h2 | h3 | h4 | h5 | h6 | h7 : w.toNat = 1 ∨ w.toNat = 2 ∨ w.toNat = 3 ∨ w.toNat = 4 ∨ w.toNat = 5 ∨
        w.toNat = 6 ∨ w.toNat = 7 := by omega
    · exact ⟨.decode, BitVec.eq_of_toNat_eq h1⟩
    · exact ⟨.counter, BitVec.eq_of_toNat_eq h2⟩
    · exact ⟨.hmac, BitVec.eq_of_toNat_eq h3⟩
    · exact ⟨.trunc, BitVec.eq_of_toNat_eq h4⟩
    · exact ⟨.generate, BitVec.eq_of_toNat_eq h5⟩
    · exact ⟨.remain, BitVec.eq_of_toNat_eq h6⟩
    · exact ⟨.wipe, BitVec.eq_of_toNat_eq h7⟩
  · rintro ⟨i, rfl⟩
    cases i <;> rfl

/-- An illegal word is none of the seven (R65). -/
theorem commandWordOk_eq_false_iff {w : Word} : commandWordOk w = false ↔ ∀ i, w ≠ encode i := by
  rw [Bool.eq_false_iff, ne_eq, commandWordOk_iff, not_exists]

/-- A table word that is none of the seven is read as no command (R65). -/
theorem decodeTableWord_illegal {w : Word} (h : commandWordOk w = false) : decodeTableWord 32 w.toNat = none := by
  rw [decodeTableWord_toNat]
  cases hd : decode w with
  | ok i => exact absurd (decode_eq_ok_iff.1 hd) (commandWordOk_eq_false_iff.1 h i)
  | error e => rfl

/-- Settles O2: each word is a command's, or fails the check of R60 and R62. -/
theorem writtenOutWordsDecodeAsListed : Obligations.WrittenOutWordsDecodeAsListed :=
  ⟨decodeTableWord_encode .decode, decodeTableWord_encode .counter, decodeTableWord_encode .hmac,
    decodeTableWord_encode .trunc, decodeTableWord_encode .generate, decodeTableWord_encode .remain,
    decodeTableWord_encode .wipe, decodeTableWord_illegal (w := 0x00000000) rfl,
    decodeTableWord_illegal (w := 0x00000008) rfl, decodeTableWord_illegal (w := 0x000000FF) rfl,
    decodeTableWord_illegal (w := 0x00000105) rfl, decodeTableWord_illegal (w := 0x80000005) rfl⟩

end Sys2Proof

namespace Sys2Proof.Machine

/-- With a fault recorded an idle block discards every word but WIPE's (R63). -/
theorem acceptCommand_of_fault {s : State} {w : Word} (hfault : s.status.fault = true) (hw : w ≠ encode .wipe) :
    acceptCommand w s = s := by
  simp [acceptCommand, hfault, hw]

/-- An idle block takes every word while no fault is recorded, and WIPE's always (R63). -/
theorem acceptCommand_of_accepted {s : State} {w : Word} (hidle : s.status.busy = false)
    (h : s.status.fault = false ∨ w = encode .wipe) :
    acceptCommand w s = { s with curCmd := w, status := s.status.accepted } := by
  obtain hfault | rfl := h
  · simp [acceptCommand, hidle, hfault]
  · simp [acceptCommand, hidle]

/-- Settles O5: a write to CMD is discarded while BUSY = 1, and is otherwise an attempt to issue the word. -/
theorem commandAcceptance : Obligations.CommandAcceptance := by
  unfold Obligations.CommandAcceptance
  intro s w
  refine ⟨hostWrite_of_busy .cmd w, fun hidle hfault hw => ?_, fun hidle h => ?_⟩
  · exact (hostWrite_of_idle .cmd w hidle).trans (congrArg (answer .ok) (acceptCommand_of_fault hfault hw))
  · exact (hostWrite_of_idle .cmd w hidle).trans (congrArg (answer .ok) (acceptCommand_of_accepted hidle h))

end Sys2Proof.Machine
end

section
/-! PROOFS. The completion step and the step by cases of who has the turn (spec/30_encoding.md R64, R65;
spec/20_memory.md R52). -/

namespace Sys2Proof.Machine

section
variable {s : State}

/-- The completion step of an accepted command (R64). -/
theorem complete_of_command {i : Instr} (h : s.curCmd = encode i) : complete s = exec i s := by
  rw [complete, decode_eq_ok_iff.2 h]

/-- The completion step of an accepted word that is no command (R65). -/
theorem complete_of_illegal (h : ∀ i, s.curCmd ≠ encode i) : complete s = .next (raiseFault .badCmd s) := by
  obtain ⟨i, hi, -⟩ | ⟨e, -, hc⟩ := complete_cases s
  · exact absurd (decode_eq_ok_iff.1 hi) (h i)
  · exact hc

/-- The engine's turn while BUSY = 1 (R64). -/
theorem engineTurn_of_busy (h : s.status.busy = true) : engineTurn s = complete s := if_pos h

/-- With no turn left the step is the engine's (log 1). -/
theorem step_of_no_turns (h : s.schedule = []) : step s = engineTurn s := by rw [step, h]

/-- The step takes the oldest turn off the schedule (R52). -/
theorem step_of_turn {turn : Turn} {rest : List Turn} (h : s.schedule = turn :: rest) :
    step s = takeTurn turn { s with schedule := rest } := by rw [step, h]

/-- While BUSY = 1 and the engine has the turn, the step is the completion step, with that turn taken (R64). -/
theorem step_of_busy (hbusy : s.status.busy = true) :
    (s.schedule = [] → step s = complete s) ∧
    ∀ rest, s.schedule = .engine :: rest → step s = complete { s with schedule := rest } :=
  ⟨fun h => (step_of_no_turns h).trans (engineTurn_of_busy hbusy),
    fun rest h => (step_of_turn h).trans (engineTurn_of_busy (s := { s with schedule := rest }) hbusy)⟩

/-- The completion of an accepted word that is no command, as a step (R65). -/
theorem step_of_illegal {rest : List Turn} (hbusy : s.status.busy = true) (hcmd : ∀ i, s.curCmd ≠ encode i)
    (h : s.schedule = .engine :: rest) : step s = .next (raiseFault .badCmd { s with schedule := rest }) :=
  ((step_of_busy hbusy).2 rest h).trans (complete_of_illegal hcmd)

/-- A host write to a register of an idle block, as a step (R47). -/
theorem step_of_idle_write {r : Reg} {v : Word} {rest : List Turn} (hidle : s.status.busy = false)
    (h : s.schedule = .write r.offset 4 v :: rest) :
    step s = .next (answer .ok (writeReg r v { s with schedule := rest })) :=
  (step_of_turn h).trans (congrArg Host.Outcome.next (hostWrite_of_idle (s := { s with schedule := rest }) r v hidle))

/-- The acceptance of a word written to CMD, as a step (R63). -/
theorem step_of_accepted_write {w : Word} {rest : List Turn} (hidle : s.status.busy = false)
    (hw : s.status.fault = false ∨ w = encode .wipe) (h : s.schedule = .write 0x000 4 w :: rest) :
    step s = .next { s with
      curCmd := w, status := s.status.accepted, schedule := rest, answers := s.answers ++ [.ok] } :=
  (step_of_idle_write (r := .cmd) hidle h).trans
    (congrArg (Host.Outcome.next <| answer .ok ·) (acceptCommand_of_accepted (s := { s with schedule := rest }) hidle hw))

end

/-- Settles O3: the step is the completion step, which goes by what CUR_CMD decodes to. -/
theorem stepRunsTheAcceptedCommand : Obligations.StepRunsTheAcceptedCommand := by
  unfold Obligations.StepRunsTheAcceptedCommand
  intro s hbusy
  obtain ⟨hnone, hengine⟩ := step_of_busy hbusy
  refine ⟨fun i hi => ?_, fun e he => ?_⟩
  · have hcmd : s.curCmd = encode i := decode_eq_ok_iff.1 hi
    exact ⟨fun h => (hnone h).trans (complete_of_command hcmd),
      fun rest h => (hengine rest h).trans (complete_of_command hcmd)⟩
  · have hillegal : ∀ i, s.curCmd ≠ encode i := fun i hi => by
      rw [decode_eq_ok_iff.2 hi] at he
      cases he
    exact ⟨fun h => (hnone h).trans (complete_of_illegal hillegal),
      fun rest h => (hengine rest h).trans (complete_of_illegal hillegal)⟩

/-- Settles O4: the placed word is accepted and the engine's turn is next. -/
theorem fetchWordRunsAtTheNextStep : Obligations.FetchWordRunsAtTheNextStep := by
  unfold Obligations.FetchWordRunsAtTheNextStep
  intro s i
  rw [State.withFetchWord, tableWord_toNat]
  have hbusy : (withCommand (encode i) s).status.busy = true := rfl
  exact ((step_of_busy hbusy).2 s.schedule rfl).trans (complete_of_command rfl)

/-- Settles O6: a step of acceptance (R63), then a step of completion that finds no command. -/
theorem illegalWordIsAcceptedAndFaults : Obligations.IllegalWordIsAcceptedAndFaults := by
  unfold Obligations.IllegalWordIsAcceptedAndFaults
  refine ⟨fun w => commandWordOk_eq_false_iff, fun s w rest hw hidle hfault hs => ⟨.arbitrary, ?_⟩⟩
  have hillegal := commandWordOk_eq_false_iff.1 hw
  exact (run_succ (step_of_accepted_write hidle (.inl hfault) hs) 1).trans (run_succ (step_of_illegal rfl hillegal rfl) 0)

end Sys2Proof.Machine
end

section
/-! PROOFS. Every completion and every step answers a next state (spec/93_implementation_defined.md part 1), and what a
completion leaves in STATUS (spec/30_encoding.md R64). -/

namespace Sys2Proof.Machine

/-- The completion step ends in a fault, or after results are written, or with the block cleared (R64, R180, R193). -/
theorem complete_results (s : State) :
    (∃ c, complete s = .next (raiseFault c s)) ∨
    (∃ u, complete s = .next (finish u) ∧ OnlyResults s u) ∨
    complete s = .next (clearBlock s) := by
  obtain ⟨i, -, hc⟩ | ⟨e, -, hc⟩ := complete_cases s
  · rw [hc]
    obtain hfault | ⟨-, hresults⟩ | ⟨-, hwipe⟩ := exec_cases i s
    · exact .inl hfault
    · exact .inr (.inl hresults)
    · exact .inr (.inr hwipe)
  · exact .inl ⟨.badCmd, hc⟩

/-- Settles O7: one shape of STATUS for each way `complete_results` names. -/
theorem completionWritesTheFlags : Obligations.CompletionWritesTheFlags := by
  unfold Obligations.CompletionWritesTheFlags
  intro s t h
  obtain ⟨c, hc⟩ | ⟨u, hc, hu⟩ | hc := complete_results s <;> cases h.symm.trans hc
  · exact ⟨rfl, .inl ⟨c, rfl⟩⟩
  · refine ⟨rfl, .inr (.inr ?_)⟩
    rw [finish_status, hu.status, Status.completed]
  · exact ⟨rfl, .inr (.inl rfl)⟩

theorem exists_complete_eq_next (s : State) : ∃ t, complete s = .next t := by
  obtain ⟨c, hc⟩ | ⟨u, hc, -⟩ | hc := complete_results s
  · exact ⟨_, hc⟩
  · exact ⟨_, hc⟩
  · exact ⟨_, hc⟩

theorem exists_engineTurn_eq_next (s : State) : ∃ t, engineTurn s = .next t := by
  cases hbusy : s.status.busy with
  | true => exact engineTurn_of_busy hbusy ▸ exists_complete_eq_next s
  | false => exact ⟨s, engineTurn_of_idle hbusy⟩

theorem exists_takeTurn_eq_next (turn : Turn) (s : State) : ∃ t, takeTurn turn s = .next t := by
  cases turn with
  | read off bytes => exact ⟨_, rfl⟩
  | write off bytes v => exact ⟨_, rfl⟩
  | reset => exact ⟨_, rfl⟩
  | engine => exact exists_engineTurn_eq_next s

/-- Settles O9: a step is an engine's turn or a turn of the schedule. -/
theorem everyStepAnswersANextState : Obligations.EveryStepAnswersANextState := by
  unfold Obligations.EveryStepAnswersANextState
  intro s
  cases hs : s.schedule with
  | nil => exact step_of_no_turns hs ▸ exists_engineTurn_eq_next s
  | cons turn rest => exact step_of_turn hs ▸ exists_takeTurn_eq_next turn _

/-- A run of one step. -/
theorem run_one (s : State) : Host.Core.run core 1 s = step s := by
  obtain ⟨t, h⟩ := everyStepAnswersANextState s
  rw [h]
  exact run_succ h 0

end Sys2Proof.Machine
end

section
/-! PROOFS. From acceptance to completion the registers stay as they are (spec/30_encoding.md R64, spec/20_memory.md R49). -/

namespace Sys2Proof.Machine

theorem SameRegisters.refl (s : State) : SameRegisters s s := rfl

theorem SameRegisters.trans {s t u : State} (hst : SameRegisters s t) (htu : SameRegisters t u) : SameRegisters s u := by
  unfold SameRegisters at *
  rw [htu, hst]

/-- A host read takes no turn and gives none (R52). -/
theorem hostRead_schedule (off bytes : Nat) (s : State) : (hostRead off bytes s).schedule = s.schedule := by
  obtain ⟨-, h⟩ | ⟨r, -, -, -, h⟩ | ⟨r, -, -, h⟩ := hostRead_cases off bytes s <;> rw [h] <;> rfl

/-- While BUSY = 1 a host write is refused or discarded, so that only the answers grow (R48, R49). -/
theorem hostWrite_eq_answer_of_busy (off bytes : Nat) (v : Word) {s : State} (hbusy : s.status.busy = true) :
    ∃ a, hostWrite off bytes v s = answer a s := by
  obtain ⟨-, h⟩ | ⟨r, -, -, h⟩ | ⟨r, -, hidle, -⟩ := hostWrite_cases off bytes v s
  · exact ⟨.error, h⟩
  · exact ⟨.ok, h⟩
  · rw [hbusy] at hidle
    cases hidle

/-- While BUSY = 1 a turn of the host changes no register and leaves the turns after it (R49). -/
theorem step_of_busy_host_turn {s : State} {turn : Turn} {rest : List Turn} (hbusy : s.status.busy = true)
    (hs : s.schedule = turn :: rest) (hreset : turn ≠ .reset) (hengine : turn ≠ .engine) :
    ∃ t, step s = .next t ∧ SameRegisters s t ∧ t.schedule = rest := by
  rw [step_of_turn hs]
  cases turn with
  | read off bytes =>
    exact ⟨_, rfl, hostRead_sameRegisters off bytes { s with schedule := rest }, hostRead_schedule off bytes _⟩
  | write off bytes v =>
    obtain ⟨a, hw⟩ := hostWrite_eq_answer_of_busy off bytes v (s := { s with schedule := rest }) hbusy
    exact ⟨_, rfl, hw ▸ rfl, hw ▸ rfl⟩
  | reset => exact absurd rfl hreset
  | engine => exact absurd rfl hengine

/-- After `k` steps on unchanged registers the completion step is taken, on those registers. -/
def CompletesAfter (k : Nat) (s : State) : Prop :=
  ∃ u v, Host.Core.run core k s = .next u ∧ SameRegisters s u ∧ SameRegisters s v ∧
    Host.Core.run core (k + 1) s = complete v

/-- The engine completes at once where it has the turn. -/
theorem completesAfter_zero {s v : State} (hv : SameRegisters s v) (h : step s = complete v) : CompletesAfter 0 s :=
  ⟨s, v, rfl, .refl s, hv, (run_one s).trans h⟩

/-- A step on unchanged registers puts the completion off by one. -/
theorem CompletesAfter.succ {k : Nat} {s t : State} (h : step s = .next t) (hst : SameRegisters s t)
    (ht : CompletesAfter k t) : CompletesAfter (k + 1) s := by
  obtain ⟨u, v, hu, htu, htv, hv⟩ := ht
  exact ⟨u, v, (run_succ h k).trans hu, hst.trans htu, hst.trans htv, (run_succ h (k + 1)).trans hv⟩

/-- While BUSY = 1 and no reset is to come, the completion is at most as many steps away as there are turns (R64). -/
theorem exists_completesAfter {turns : List Turn} {s : State} (hbusy : s.status.busy = true) (hs : s.schedule = turns)
    (hreset : turns.all Turn.notReset = true) : ∃ k ≤ turns.length, CompletesAfter k s := by
  induction turns generalizing s with
  | nil => exact ⟨0, Nat.le_refl 0, completesAfter_zero (.refl s) ((step_of_busy hbusy).1 hs)⟩
  | cons turn rest ih =>
    rw [List.all_cons, Bool.and_eq_true] at hreset
    obtain ⟨hturn, hrest⟩ := hreset
    by_cases hengine : turn = .engine
    · subst hengine
      have hsame : SameRegisters s { s with schedule := rest } := rfl
      exact ⟨0, Nat.zero_le _, completesAfter_zero hsame ((step_of_busy hbusy).2 rest hs)⟩
    · have hne : turn ≠ .reset := by
        rintro rfl
        cases hturn
      obtain ⟨t, hstep, hsame, ht⟩ := step_of_busy_host_turn hbusy hs hne hengine
      obtain ⟨k, hk, hcomplete⟩ := ih (hsame.status ▸ hbusy) ht hrest
      exact ⟨k + 1, Nat.succ_le_succ hk, hcomplete.succ hstep hsame⟩

/-- Settles O8: the completion is reached by induction on the turns to come, and it clears BUSY. -/
theorem acceptedCommandCompletesOnUnchangedRegisters : Obligations.AcceptedCommandCompletesOnUnchangedRegisters := by
  unfold Obligations.AcceptedCommandCompletesOnUnchangedRegisters
  intro s hbusy hreset
  obtain ⟨k, hk, u, v, hu, hsu, hsv, hv⟩ := exists_completesAfter hbusy rfl hreset
  obtain ⟨t, ht⟩ := exists_complete_eq_next v
  exact ⟨k, u, v, hk, hu, hsu, hsv, hv, t, ht, (completionWritesTheFlags v t ht).1⟩

end Sys2Proof.Machine
end

section
/-! PROOFS. Every way the completion of each command ends (the rules cited at each), and what it leaves alone
(spec/30_encoding.md R62). HMAC, TRUNC and WIPE end in one way, the body of their meaning. -/

namespace Sys2Proof.Machine

section
variable (s : State)

/-- DECODE (spec/40_base32_decode.md R85). -/
theorem exec_decode_cases :
    (Config.secretMax < s.secretLen.toNat ∧ exec .decode s = .next (raiseFault .lenRange s)) ∨
    (s.secretLen.toNat ≤ Config.secretMax ∧ exec .decode s = .next (finish { s with
      key := bufOf 80 (b32decode (secretText s)), keyLen := BitVec.ofNat 32 (b32decode (secretText s)).length })) := by
  by_cases hlen : Config.secretMax < s.secretLen.toNat
  · exact .inl ⟨hlen, if_pos hlen⟩
  · exact .inr ⟨Nat.le_of_not_lt hlen, if_neg hlen⟩

/-- COUNTER (spec/41_counter_time.md R103). -/
theorem exec_counter_cases :
    (s.period = 0 ∧ exec .counter s = .next (raiseFault .periodZero s)) ∨
    (s.period ≠ 0 ∧ Config.counterLimit ≤ counterOf s.timeMs.toNat s.period.toNat ∧
      exec .counter s = .next (raiseFault .counterRange s)) ∨
    (s.period ≠ 0 ∧ counterOf s.timeMs.toNat s.period.toNat < Config.counterLimit ∧
      exec .counter s = .next (finish { s with
        msg := bufOf 8 (counterBytes (counterOf s.timeMs.toNat s.period.toNat)) })) := by
  by_cases hperiod : s.period = 0
  · exact .inl ⟨hperiod, if_pos hperiod⟩
  · refine .inr ?_
    by_cases hlimit : Config.counterLimit ≤ counterOf s.timeMs.toNat s.period.toNat
    · exact .inl ⟨hperiod, hlimit, (if_neg hperiod).trans (if_pos hlimit)⟩
    · exact .inr ⟨hperiod, Nat.lt_of_not_le hlimit, (if_neg hperiod).trans (if_neg hlimit)⟩

/-- GENERATE (spec/44_generate.md R165). -/
theorem exec_generate_cases :
    (Config.secretMax < s.secretLen.toNat ∧ exec .generate s = .next (raiseFault .lenRange s)) ∨
    (s.secretLen.toNat ≤ Config.secretMax ∧ Config.counterLimit ≤ counterOf s.timeMs.toNat Config.genPeriod ∧
      exec .generate s = .next (raiseFault .counterRange s)) ∨
    (s.secretLen.toNat ≤ Config.secretMax ∧ counterOf s.timeMs.toNat Config.genPeriod < Config.counterLimit ∧
      ∃ k m d, k = b32decode (secretText s) ∧ m = counterBytes (counterOf s.timeMs.toNat Config.genPeriod) ∧
        d = hmacSha1 k m ∧ exec .generate s = .next (finish (withCode d { s with
          key := bufOf 80 k, keyLen := BitVec.ofNat 32 k.length, msg := bufOf 8 m, digest := bufOf 20 d }))) := by
  by_cases hlen : Config.secretMax < s.secretLen.toNat
  · exact .inl ⟨hlen, if_pos hlen⟩
  · have hle := Nat.le_of_not_lt hlen
    refine .inr ?_
    by_cases hlimit : Config.counterLimit ≤ counterOf s.timeMs.toNat Config.genPeriod
    · exact .inl ⟨hle, hlimit, (if_neg hlen).trans (if_pos hlimit)⟩
    · exact .inr ⟨hle, Nat.lt_of_not_le hlimit, _, _, _, rfl, rfl, rfl, (if_neg hlen).trans (if_neg hlimit)⟩

/-- REMAIN (spec/41_counter_time.md R106). -/
theorem exec_remain_cases :
    (s.period = 0 ∧ exec .remain s = .next (raiseFault .periodZero s)) ∨
    (s.period ≠ 0 ∧ exec .remain s = .next (finish { s with
      remaining := BitVec.ofNat 32 (remainingOf s.timeMs.toNat s.period.toNat) })) := by
  by_cases hperiod : s.period = 0
  · exact .inl ⟨hperiod, if_pos hperiod⟩
  · exact .inr ⟨hperiod, if_neg hperiod⟩

end

/-- Settles O53: each way a command ends is an update of the named registers alone. -/
theorem commandsWriteOnlyTheirResults : Obligations.CommandsWriteOnlyTheirResults := by
  unfold Obligations.CommandsWriteOnlyTheirResults
  intro s t
  refine ⟨fun h => ?_, fun h => ?_, fun h => ?_, fun h => ?_, fun h => ?_, fun h => ?_⟩
  · obtain ⟨-, he⟩ | ⟨-, he⟩ := exec_decode_cases s <;> cases h.symm.trans he <;> rfl
  · obtain ⟨-, he⟩ | ⟨-, -, he⟩ | ⟨-, -, he⟩ := exec_counter_cases s <;> cases h.symm.trans he <;> rfl
  · cases h
    rfl
  · cases h
    rfl
  · obtain ⟨-, he⟩ | ⟨-, -, he⟩ | ⟨-, -, k, m, d, -, -, -, he⟩ := exec_generate_cases s <;>
      cases h.symm.trans he <;> rfl
  · obtain ⟨-, he⟩ | ⟨-, he⟩ := exec_remain_cases s <;> cases h.symm.trans he <;> rfl

end Sys2Proof.Machine
end

section
/-! PROOFS. SECRETSTR: the word writes of a text, then its length (spec/30_encoding.md R68). -/

namespace Sys2Proof.Machine

section
variable (b0 b1 b2 b3 : Byte)

/-! The lanes of a joined word are its bytes (spec/00_scope.md R7, spec/20_memory.md R43). -/

@[simp] theorem lane_joinBytes_zero : lane (joinBytes b0 b1 b2 b3) 0 = b0 :=
  (BitVec.extractLsb'_append_eq_of_le (by decide)).trans <|
    (BitVec.extractLsb'_append_eq_of_le (by decide)).trans BitVec.extractLsb'_append_eq_left

@[simp] theorem lane_joinBytes_one : lane (joinBytes b0 b1 b2 b3) 1 = b1 :=
  (BitVec.extractLsb'_append_eq_of_le (by decide)).trans <|
    (BitVec.extractLsb'_append_eq_of_le (by decide)).trans BitVec.extractLsb'_append_eq_right

@[simp] theorem lane_joinBytes_two : lane (joinBytes b0 b1 b2 b3) 2 = b2 :=
  (BitVec.extractLsb'_append_eq_of_le (by decide)).trans BitVec.extractLsb'_append_eq_right

@[simp] theorem lane_joinBytes_three : lane (joinBytes b0 b1 b2 b3) 3 = b3 :=
  BitVec.extractLsb'_append_eq_right

end

/-- Byte `k` of the word at index `i` of a byte sequence (R7). -/
theorem lane_be32 (bs : List Byte) (i : Nat) {k : Nat} (hk : k < 4) : lane (be32 bs i) k = bs.getD (i + k) 0 := by
  match k, hk with
  | 0, _ => exact lane_joinBytes_zero _ _ _ _
  | 1, _ => exact lane_joinBytes_one _ _ _ _
  | 2, _ => exact lane_joinBytes_two _ _ _ _
  | 3, _ => exact lane_joinBytes_three _ _ _ _

/-- A buffer after the first `n` words of a text are written to it (R43, R68). -/
def loadWords {size : Nat} (text : List Byte) (b : Vector Byte size) : Nat → Vector Byte size
  | 0 => b
  | n + 1 => setWord (loadWords text b n) n (be32 text (4 * n))

/-- The written words hold the text, with zeros after it; the other bytes are left alone. -/
theorem byteAt_loadWords {size : Nat} (text : List Byte) (b : Vector Byte size) (n i : Nat) (hn : 4 * n ≤ size) :
    byteAt (loadWords text b n) i = if i < 4 * n then text.getD i 0 else byteAt b i := by
  induction n with
  | zero => simp [loadWords]
  | succ n ih =>
    rw [loadWords, byteAt_setWord]
    by_cases hword : i / 4 = n
    · rw [if_pos ⟨by omega, hword⟩, lane_be32 _ _ (Nat.mod_lt i (by decide)), if_pos (by omega)]
      congr 1
      omega
    · rw [if_neg (fun h => hword h.2), ih (by omega)]
      exact if_congr (by omega) rfl rfl

/-- The first bytes of a buffer, from the byte at each index. -/
theorem take_toList_eq {size : Nat} {b : Vector Byte size} {text : List Byte} (hlen : text.length ≤ size)
    (h : ∀ i < text.length, byteAt b i = text.getD i 0) : b.toList.take text.length = text := by
  refine List.ext_getElem (by simp [hlen]) fun i h1 h2 => ?_
  have := h i h2
  simpa [byteAt, List.getD_eq_getElem?_getD, h2, Nat.lt_of_lt_of_le h2 hlen] using this

/-- Two runs in a row are one. -/
theorem run_add {s t : State} {m : Nat} (h : Host.Core.run core m s = .next t) (n : Nat) :
    Host.Core.run core (m + n) s = Host.Core.run core n t := by
  induction m generalizing s with
  | zero =>
    cases h
    rw [Nat.zero_add]
  | succ m ih =>
    obtain ⟨u, hu⟩ := everyStepAnswersANextState s
    rw [run_succ hu] at h
    rw [Nat.add_right_comm, run_succ hu, ih h]

/-- A run that comes to a host write to a register of an idle block takes it as its next step (R47). -/
theorem run_succ_idle_write {n : Nat} {s u : State} {r : Reg} {v : Word} {rest : List Turn}
    (h : Host.Core.run core n s = .next u) (hidle : u.status.busy = false)
    (hs : u.schedule = .write r.offset 4 v :: rest) :
    Host.Core.run core (n + 1) s = .next (answer .ok (writeReg r v { u with schedule := rest })) :=
  (run_add h 1).trans ((run_one u).trans (step_of_idle_write hidle hs))

@[simp] theorem length_secretWords (text : List Byte) (n : Nat) : (Script.secretWords text n).length = n := by
  simp [Script.secretWords]

@[simp] theorem length_secretStr (text : List Byte) :
    (Script.secretStr text).length = (text.length + 3) / 4 + 1 := by
  simp [Script.secretStr, Script.wr]

theorem secretWords_succ (text : List Byte) (n : Nat) :
    Script.secretWords text (n + 1) = Script.secretWords text n ++ [.write (0x100 + 4 * n) 4 (be32 text (4 * n))] := by
  simp [Script.secretWords, List.range_succ]

/-- The word writes of SECRETSTR in an idle block change SECRET alone (R47, R68). -/
theorem run_secretWords (text : List Byte) {n : Nat} {s : State} {rest : List Turn} (hn : n ≤ 32)
    (hidle : s.status.busy = false) (hs : s.schedule = Script.secretWords text n ++ rest) :
    Host.Core.run core n s = .next { s with
      secret := loadWords text s.secret n, schedule := rest, answers := s.answers ++ List.replicate n .ok } := by
  induction n generalizing rest with
  | zero =>
    obtain rfl : s.schedule = rest := hs
    rw [List.replicate_zero, List.append_nil]
    rfl
  | succ n ih =>
    rw [secretWords_succ, List.append_assoc] at hs
    refine (run_succ_idle_write (r := .secret ⟨n, by omega⟩) (ih (by omega) hs) hidle rfl).trans ?_
    rw [List.replicate_succ', ← List.append_assoc, writeReg]
    rfl

/-- The turns of SECRETSTR in an idle block change SECRET and SECRET_LEN alone (R68). -/
theorem run_secretStr {text : List Byte} {s : State} {rest : List Turn} (hidle : s.status.busy = false)
    (hlen : text.length ≤ 128) (hs : s.schedule = Script.secretStr text ++ rest) :
    Host.Core.run core (Script.secretStr text).length s = .next { s with
      secret := loadWords text s.secret ((text.length + 3) / 4), secretLen := BitVec.ofNat 32 text.length,
      schedule := rest, answers := s.answers ++ List.replicate (Script.secretStr text).length .ok } := by
  rw [Script.secretStr, List.append_assoc] at hs
  rw [length_secretStr]
  refine (run_succ_idle_write (r := .secretLen) (run_secretWords text (by omega) hidle hs) hidle rfl).trans ?_
  rw [List.replicate_succ', ← List.append_assoc]
  rfl

/-- Settles O19: the state after the run is `run_secretStr`, and `byteAt_loadWords` reads SECRET there byte by byte. -/
theorem secretStringLoadsTheSecret : Obligations.SecretStringLoadsTheSecret := by
  unfold Obligations.SecretStringLoadsTheSecret
  intro s text rest hidle hlen hs
  have hbyte (i : Nat) := byteAt_loadWords text s.secret ((text.length + 3) / 4) i (by omega)
  refine ⟨_, run_secretStr hidle hlen hs, ?_, rfl, fun i hfrom hto => ?_, fun i hfrom => ?_⟩
  · have htoNat : (BitVec.ofNat 32 text.length).toNat = text.length := by
      rw [BitVec.toNat_ofNat, Nat.mod_eq_of_lt (by omega)]
    rw [secretText, htoNat]
    exact take_toList_eq hlen fun i hi => (hbyte i).trans (if_pos (by omega))
  · rw [hbyte, if_pos hto]
    exact List.getD_eq_default _ _ hfrom
  · rw [hbyte, if_neg (by omega)]

end Sys2Proof.Machine
end

section
/-! PROOFS. The characters of the Secret (spec/40_base32_decode.md R80, R81): the classes of the byte values, and texts with
the same valid characters. -/

namespace Sys2Proof.Machine

section
variable {c : Byte}

theorem toNat_foldCase_of_lower (h : 0x61 ≤ c.toNat ∧ c.toNat ≤ 0x7A) : (foldCase c).toNat = c.toNat - 0x20 := by
  rw [foldCase, if_pos h]
  exact BitVec.toNat_sub_of_le (BitVec.le_def.2 (Nat.le_trans (by decide) h.1))

theorem foldCase_of_not_lower (h : ¬ (0x61 ≤ c.toNat ∧ c.toNat ≤ 0x7A)) : foldCase c = c := if_neg h

theorem b32value_of_digit (h : 0x32 ≤ c.toNat ∧ c.toNat ≤ 0x37) :
    b32value c = some (BitVec.ofNat 5 (c.toNat - 0x32 + 26)) := by
  rw [b32value, foldCase_of_not_lower (by omega)]
  exact (if_neg (by omega)).trans (if_pos h)

theorem b32value_of_upper (h : 0x41 ≤ c.toNat ∧ c.toNat ≤ 0x5A) :
    b32value c = some (BitVec.ofNat 5 (c.toNat - 0x41)) := by
  rw [b32value, foldCase_of_not_lower (by omega)]
  exact if_pos h

theorem b32value_of_lower (h : 0x61 ≤ c.toNat ∧ c.toNat ≤ 0x7A) :
    b32value c = some (BitVec.ofNat 5 (c.toNat - 0x61)) := by
  rw [b32value, toNat_foldCase_of_lower h, Nat.sub_sub]
  exact if_pos (by omega)

theorem b32value_eq_none (hdigit : c.toNat < 0x32 ∨ 0x37 < c.toNat) (hupper : c.toNat < 0x41 ∨ 0x5A < c.toNat)
    (hlower : c.toNat < 0x61 ∨ 0x7A < c.toNat) : b32value c = none := by
  rw [b32value, foldCase_of_not_lower (by omega)]
  exact (if_neg (by omega)).trans (if_neg (by omega))

theorem b32valid_eq_false_iff : b32valid c = false ↔ b32value c = none := by
  rw [b32valid, Option.isSome_eq_false_iff, Option.isNone_iff_eq_none]

/-- Folding twice is folding once: a folded byte is no lower-case letter. -/
theorem foldCase_foldCase : foldCase (foldCase c) = foldCase c := by
  by_cases h : 0x61 ≤ c.toNat ∧ c.toNat ≤ 0x7A
  · exact foldCase_of_not_lower (by rw [toNat_foldCase_of_lower h]; omega)
  · rw [foldCase_of_not_lower h, foldCase_of_not_lower h]

/-- A byte has the value of its upper-case form. -/
theorem b32value_foldCase : b32value (foldCase c) = b32value c := by
  rw [b32value, foldCase_foldCase, ← b32value]

end

/-- The decoding of a text depends on the values of its valid characters alone (R82). -/
theorem b32decode_congr {s t : List Byte} (h : b32values s = b32values t) : b32decode s = b32decode t :=
  congrArg (b32loop 0 0) h

/-- A stripped byte makes no difference, wherever it stands (R81): it gives no value. -/
theorem b32decode_append_cons_of_none (s t : List Byte) {c : Byte} (h : b32value c = none) :
    b32decode (s ++ c :: t) = b32decode (s ++ t) := by
  refine b32decode_congr ?_
  rw [b32values_append, b32values_append]
  exact congrArg (b32values s ++ ·) (List.filterMap_cons_none h)

/-- The cleaned text has the values of the text (R83). -/
theorem b32values_cleanText (text : List Byte) : b32values (cleanText text) = b32values text := by
  rw [b32values, cleanText, List.filterMap_map, List.filterMap_filter]
  refine List.filterMap_congr fun c _ => ?_
  cases hvalid : b32valid c with
  | true => exact b32value_foldCase
  | false => exact (b32valid_eq_false_iff.1 hvalid).symm

/-- There is one value for each valid character. -/
theorem length_b32values (text : List Byte) : (b32values text).length = (text.filter b32valid).length :=
  List.length_filterMap_eq_countP.trans List.countP_eq_length_filter

end Sys2Proof.Machine
end

section
/-! PROOFS. The accumulator of R82 and the bitstream: the accumulator holds the number that the bits not yet put out stand for
(spec/40_base32_decode.md R82). -/

namespace Sys2Proof.Machine

/-- The number a string of bits stands for, the first bit the most significant. -/
def bitsValue (bits : List Bool) : Nat := Nat.ofDigits 2 (bits.reverse.map Bool.toNat)

theorem bitsValue_append (a b : List Bool) : bitsValue (a ++ b) = bitsValue a * 2 ^ b.length + bitsValue b := by
  simp only [bitsValue, List.reverse_append, List.map_append, Nat.ofDigits_append, List.length_map, List.length_reverse]
  ring

theorem bitsValue_lt (bits : List Bool) : bitsValue bits < 2 ^ bits.length := by
  have h : bitsValue bits < 2 ^ (bits.reverse.map Bool.toNat).length :=
    Nat.ofDigits_lt_base_pow_length (by decide) (List.forall_mem_map.2 fun b _ => b.toNat_lt)
  simpa using h

/-- Shifting a bitstream right drops its last bits. -/
theorem bitsValue_append_div (a b : List Bool) : bitsValue (a ++ b) / 2 ^ b.length = bitsValue a := by
  rw [bitsValue_append, Nat.mul_comm, Nat.mul_add_div (by positivity), Nat.div_eq_of_lt (bitsValue_lt b), Nat.add_zero]

/-- Masking a bitstream keeps its last bits. -/
theorem bitsValue_append_mod (a b : List Bool) : bitsValue (a ++ b) % 2 ^ b.length = bitsValue b := by
  rw [bitsValue_append, Nat.mul_add_mod_self_right, Nat.mod_eq_of_lt (bitsValue_lt b)]

theorem length_fiveBits (v : BitVec 5) : (fiveBits v).length = 5 := rfl

theorem bitsValue_fiveBits (v : BitVec 5) : bitsValue (fiveBits v) = v.toNat := by
  revert v
  decide

theorem byteOfBits_eq (b7 b6 b5 b4 b3 b2 b1 b0 : Bool) :
    byteOfBits b7 b6 b5 b4 b3 b2 b1 b0 = BitVec.ofNat 8 (bitsValue [b7, b6, b5, b4, b3, b2, b1, b0]) := by
  revert b7 b6 b5 b4 b3 b2 b1 b0
  decide

/-- Eight bits at the front of a bitstream are its first byte. -/
theorem regroup_append (bits rest : List Bool) (h : bits.length = 8) :
    regroup (bits ++ rest) = BitVec.ofNat 8 (bitsValue bits) :: regroup rest := by
  match bits, h with
  | [b7, b6, b5, b4, b3, b2, b1, b0], _ => exact congrArg (· :: regroup rest) (byteOfBits_eq b7 b6 b5 b4 b3 b2 b1 b0)

/-- Bits that complete no byte are discarded. -/
theorem regroup_of_length_lt {bits : List Bool} (h : bits.length < 8) : regroup bits = [] := by
  match bits with
  | [] | [_] | [_, _] | [_, _, _] | [_, _, _, _] | [_, _, _, _, _] | [_, _, _, _, _, _] | [_, _, _, _, _, _, _] => rfl

/-- The invariant of the loop of R82: with fewer than eight bits pending, their number and their value in the accumulator, it
gives what regrouping those bits and the bits to come gives. -/
theorem b32loop_eq_regroup (vs : List (BitVec 5)) (bits : List Bool) (h : bits.length < 8) :
    b32loop (bitsValue bits) bits.length vs = regroup (bits ++ vs.flatMap fiveBits) := by
  induction vs generalizing bits with
  | nil => rw [b32loop_nil, List.flatMap_nil, List.append_nil, regroup_of_length_lt h]
  | cons v vs ih =>
    have hacc : bitsValue bits * 32 + v.toNat = bitsValue (bits ++ fiveBits v) := by
      simp only [bitsValue_append, bitsValue_fiveBits, length_fiveBits, Nat.reducePow]
    have hlen : (bits ++ fiveBits v).length = bits.length + 5 := by rw [List.length_append, length_fiveBits]
    rw [b32loop_cons, hacc, List.flatMap_cons, ← List.append_assoc]
    split
    next hfull =>
      obtain ⟨byte, left, hsplit, hbyte⟩ : ∃ byte left, bits ++ fiveBits v = byte ++ left ∧ byte.length = 8 :=
        ⟨_, _, (List.take_append_drop 8 _).symm, by rw [List.length_take, hlen]; omega⟩
      have hleft : left.length = bits.length - 3 := by
        rw [hsplit, List.length_append, hbyte] at hlen
        omega
      rw [hsplit, ← hleft, bitsValue_append_div, bitsValue_append_mod, ih left (by omega), List.append_assoc,
        regroup_append byte _ hbyte]
    next hfew => rw [← hlen, ih _ (by omega)]

/-- What the loop puts out for the first characters stays whatever comes after them. -/
theorem b32loop_prefix_append (vs ws : List (BitVec 5)) (acc nbits : Nat) :
    b32loop acc nbits vs <+: b32loop acc nbits (vs ++ ws) := by
  induction vs generalizing acc nbits with
  | nil => exact List.nil_prefix
  | cons v vs ih =>
    rw [List.cons_append, b32loop_cons, b32loop_cons]
    split
    · exact List.cons_prefix_cons.2 ⟨rfl, ih _ _⟩
    · exact ih _ _

end Sys2Proof.Machine
end

section
/-! PROOFS. The statements about Base32 and DECODE (spec/40_base32_decode.md). -/

namespace Sys2Proof.Machine

/-- Settles O21: the loop's invariant from the empty accumulator. -/
theorem accumulatorDecodesTheBitstream : Obligations.AccumulatorDecodesTheBitstream :=
  fun text => b32loop_eq_regroup (b32values text) [] (by decide)

/-- Settles O20, row by row of the table of R81. -/
theorem characterClassesOfTheTable : Obligations.CharacterClassesOfTheTable := by
  unfold Obligations.CharacterClassesOfTheTable
  refine ⟨fun s t _ => b32decode_append_cons_of_none s t, fun c =>
    ⟨fun h => ?_, b32value_of_digit, fun h => ?_, b32value_of_upper, fun h => ?_, b32value_of_lower, fun h => ?_⟩⟩
  all_goals exact b32value_eq_none (by omega) (by omega) (by omega)

/-- Settles O22: the length of a decoding counts its valid characters. -/
theorem decodedLengthIsFiveEighths : Obligations.DecodedLengthIsFiveEighths := by
  unfold Obligations.DecodedLengthIsFiveEighths
  intro text
  have hlen : (b32decode text).length = 5 * (text.filter b32valid).length / 8 := by
    rw [length_b32decode, length_b32values]
  exact ⟨hlen, length_b32decode_le, fun hfew => List.eq_nil_of_length_eq_zero (by omega)⟩

/-- Settles O23: the texts compared have the same values of valid characters. -/
theorem decodingIgnoresCaseAndInvalidBytes : Obligations.DecodingIgnoresCaseAndInvalidBytes :=
  ⟨fun text => b32decode_congr (b32values_cleanText text).symm,
    fun s t _ h => b32decode_append_cons_of_none s t (b32valid_eq_false_iff.1 h)⟩

/-- Settles O24: the values of the longer text begin with those of the shorter. -/
theorem decodingExtendsWithTheText : Obligations.DecodingExtendsWithTheText := by
  unfold Obligations.DecodingExtendsWithTheText
  intro s t
  rw [b32decode, b32decode, b32values_append]
  exact b32loop_prefix_append _ _ 0 0

/-- Settles O25: the two ways DECODE ends, the key read byte by byte. -/
theorem decodeWritesTheKey : Obligations.DecodeWritesTheKey := by
  unfold Obligations.DecodeWritesTheKey
  intro s
  obtain ⟨hlong, he⟩ | ⟨hshort, he⟩ := exec_decode_cases s
  · exact ⟨fun _ => ⟨_, he⟩, fun h => absurd hlong (Nat.not_lt.2 h)⟩
  · refine ⟨fun h => absurd h (Nat.not_lt.2 hshort), fun _ => ⟨_, _, _, he, ?_, fun j hj => ?_⟩⟩
    · exact toNat_length_b32decode_secretText s
    · exact (byteAt_bufOf _ j).trans (if_pos hj)

end Sys2Proof.Machine
end

section
/-! PROOFS. The arithmetic of the counter and of the remaining time (spec/41_counter_time.md R101, R105): together they
are the quotient and the remainder of the whole seconds, so each second the one steps or the other counts down. -/

namespace Sys2Proof.Machine

section
variable {t p : Nat}

/-- The counter divides the whole seconds by the period (R101). -/
theorem counterOf_eq_seconds_div (t p : Nat) : counterOf t p = t / 1000 / p := (Nat.div_div_eq_div_mul t 1000 p).symm

/-- The counter of period 30 (R101). -/
theorem counterOf_thirty (t : Nat) : counterOf t 30 = t / 30000 := rfl

/-- A counter reaches a limit when the time reaches that many periods (R103). -/
theorem le_counterOf_iff (hp : p ≠ 0) (limit : Nat) : limit ≤ counterOf t p ↔ limit * 1000 * p ≤ t := by
  rw [counterOf, Nat.le_div_iff_mul_le (by omega), Nat.mul_assoc]

theorem remainingOf_pos (hp : 1 ≤ p) : 1 ≤ remainingOf t p := Nat.sub_pos_of_lt (Nat.mod_lt _ hp)

theorem remainingOf_le (t p : Nat) : remainingOf t p ≤ p := Nat.sub_le _ _

theorem remainingOf_eq_period_iff (hp : 1 ≤ p) : remainingOf t p = p ↔ t / 1000 % p = 0 := by
  rw [remainingOf]
  omega

/-- The whole seconds, from the counter and the remaining time (R108). -/
theorem seconds_eq (hp : 1 ≤ p) : t / 1000 = counterOf t p * p + (p - remainingOf t p) := by
  rw [counterOf_eq_seconds_div, remainingOf, Nat.sub_sub_self (Nat.mod_lt _ hp).le, Nat.div_add_mod']

/-- No other counter and remaining time give these seconds. -/
theorem counterOf_remainingOf_unique {c r : Nat} (hpos : 1 ≤ r) (hle : r ≤ p) (h : t / 1000 = c * p + (p - r)) :
    counterOf t p = c ∧ remainingOf t p = r := by
  obtain ⟨hdiv, hmod⟩ : t / 1000 / p = c ∧ t / 1000 % p = p - r :=
    (Nat.div_mod_unique (by omega)).2 ⟨by rw [h, Nat.mul_comm, Nat.add_comm], by omega⟩
  exact ⟨(counterOf_eq_seconds_div t p).trans hdiv, by rw [remainingOf, hmod, Nat.sub_sub_self hle]⟩

/-- Within a second neither changes. -/
theorem succ_within_second (h : (t + 1) / 1000 = t / 1000) :
    counterOf (t + 1) p = counterOf t p ∧ remainingOf (t + 1) p = remainingOf t p := by
  rw [counterOf_eq_seconds_div, counterOf_eq_seconds_div, remainingOf, remainingOf, h]
  exact ⟨rfl, rfl⟩

/-- At a new second the remaining time counts down while more than 1 is left. -/
theorem succ_second_counts_down (h : (t + 1) / 1000 = t / 1000 + 1) (hmore : 1 < remainingOf t p) :
    counterOf (t + 1) p = counterOf t p ∧ remainingOf (t + 1) p = remainingOf t p - 1 := by
  have hle := remainingOf_le t p
  refine counterOf_remainingOf_unique (by omega) (by omega) ?_
  rw [h, seconds_eq (t := t) (p := p) (by omega)]
  omega

/-- At a new second the counter steps, and the remaining time jumps back to the period, when 1 is left. -/
theorem succ_second_starts_period (h : (t + 1) / 1000 = t / 1000 + 1) (hone : remainingOf t p = 1) :
    counterOf (t + 1) p = counterOf t p + 1 ∧ remainingOf (t + 1) p = p := by
  have hle := remainingOf_le t p
  refine counterOf_remainingOf_unique (by omega) le_rfl ?_
  rw [h, seconds_eq (t := t) (p := p) (by omega), hone, Nat.succ_mul]
  omega

/-- The counter changes exactly where the remaining time jumps from 1 back to the period (R108). -/
theorem counterOf_succ_ne_iff (hp : 2 ≤ p) :
    counterOf (t + 1) p ≠ counterOf t p ↔ remainingOf t p = 1 ∧ remainingOf (t + 1) p = p := by
  obtain hsame | hnext : (t + 1) / 1000 = t / 1000 ∨ (t + 1) / 1000 = t / 1000 + 1 := by omega
  · obtain ⟨hcounter, hremaining⟩ := succ_within_second (p := p) hsame
    exact iff_of_false (absurd hcounter) fun ⟨hone, hjump⟩ => by omega
  · obtain hmore | hone := (remainingOf_pos (t := t) (p := p) (by omega)).lt_or_eq
    · obtain ⟨hcounter, -⟩ := succ_second_counts_down hnext hmore
      exact iff_of_false (absurd hcounter) fun ⟨hone, _⟩ => by omega
    · obtain ⟨hcounter, hjump⟩ := succ_second_starts_period hnext hone.symm
      exact iff_of_true (by omega) ⟨hone.symm, hjump⟩

end

/-- A lane of a word, as a number (R43). -/
theorem lane_eq_ofNat_div (c : Word) (k : Nat) : lane c k = BitVec.ofNat 8 (c.toNat / 2 ^ (24 - 8 * k)) := by
  rw [lane, BitVec.extractLsb', Nat.shiftRight_eq_div_pow]

/-- The four bytes of a word are its lanes (R7). -/
theorem bytesBe_toNat (c : Word) : bytesBe c.toNat 4 = [lane c 0, lane c 1, lane c 2, lane c 3] := by
  simp only [lane_eq_ofNat_div]
  rfl

/-- The counter bytes of a word are a zero word and its lanes (R102). -/
theorem counterBytes_toNat (c : Word) : counterBytes c.toNat = [0, 0, 0, 0, lane c 0, lane c 1, lane c 2, lane c 3] :=
  congrArg (List.replicate 4 0 ++ ·) (bytesBe_toNat c)

/-- MSG filled with the counter bytes of a word. -/
theorem toList_bufOf_counterBytes (c : Word) :
    (bufOf 8 (counterBytes c.toNat)).toList = [0, 0, 0, 0, lane c 0, lane c 1, lane c 2, lane c 3] :=
  (toList_bufOf _ (length_counterBytes _)).trans (counterBytes_toNat c)

end Sys2Proof.Machine
end

section
/-! PROOFS. The statements about COUNTER, REMAIN and their arithmetic (spec/41_counter_time.md). -/

namespace Sys2Proof.Machine

/-- Settles O31: the whole seconds fix the counter and the remaining time. -/
theorem counterChangesWhereRemainingTimeJumps : Obligations.CounterChangesWhereRemainingTimeJumps :=
  ⟨fun _ _ => seconds_eq, fun _ _ => counterOf_succ_ne_iff⟩

/-- Settles O28: the counter of period 30 is the quotient by 30000. -/
theorem counterStepsAtWindowBoundaries : Obligations.CounterStepsAtWindowBoundaries := by
  unfold Obligations.CounterStepsAtWindowBoundaries
  refine ⟨fun _ _ h => ?_, fun _ h => ?_, fun _ h => ?_, rfl, rfl⟩ <;> rw [counterOf_thirty, counterOf_thirty]
  · exact h
  · exact Nat.succ_div_of_mod_eq_zero h
  · exact Nat.succ_div_of_mod_ne_zero h

/-- Settles O30: the period less a remainder by the period. -/
theorem remainingTimeIsOneToPeriod : Obligations.RemainingTimeIsOneToPeriod := by
  unfold Obligations.RemainingTimeIsOneToPeriod
  intro t p hp
  have hpos : 1 ≤ remainingOf t p := remainingOf_pos hp
  exact ⟨hpos, remainingOf_le t p, remainingOf_eq_period_iff hp, Nat.ne_of_gt hpos⟩

/-- Settles O29: the two ways REMAIN ends; the seconds left are at most PERIOD, so they fit the register. -/
theorem remainWritesTheSecondsLeft : Obligations.RemainWritesTheSecondsLeft := by
  unfold Obligations.RemainWritesTheSecondsLeft
  intro s
  obtain ⟨hzero, he⟩ | ⟨hne, he⟩ := exec_remain_cases s
  · exact ⟨fun _ => ⟨_, he⟩, fun h => absurd (congrArg BitVec.toNat hzero) h⟩
  · have hfits : remainingOf s.timeMs.toNat s.period.toNat < 2 ^ 32 :=
      Nat.lt_of_le_of_lt (remainingOf_le _ _) s.period.isLt
    refine ⟨fun h => absurd (BitVec.eq_of_toNat_eq h) hne, fun _ => ⟨_, _, he, ?_⟩⟩
    rw [BitVec.toNat_ofNat, Nat.mod_eq_of_lt hfits, remainingOf]

/-- Settles O26: the three ways COUNTER ends. -/
theorem counterWritesTheCounterBytes : Obligations.CounterWritesTheCounterBytes := by
  unfold Obligations.CounterWritesTheCounterBytes
  intro s
  obtain ⟨hzero, he⟩ | ⟨hne, hlimit, he⟩ | ⟨hne, hfits, he⟩ := exec_counter_cases s
  · have hzero := congrArg BitVec.toNat hzero
    exact ⟨fun _ => ⟨_, he⟩, fun h => absurd hzero h, fun h => absurd hzero h⟩
  · have hne := BitVec.toNat_ne.1 hne
    exact ⟨fun h => absurd h hne, fun _ _ => ⟨_, he⟩,
      fun _ h => absurd ((le_counterOf_iff hne _).1 hlimit) (Nat.not_le.2 h)⟩
  · have hne := BitVec.toNat_ne.1 hne
    refine ⟨fun h => absurd h hne, fun _ h => absurd ((le_counterOf_iff hne _).2 h) (Nat.not_le.2 hfits),
      fun _ _ => ?_⟩
    obtain ⟨c, hc⟩ : ∃ c : Word, c.toNat = counterOf s.timeMs.toNat s.period.toNat := ⟨.ofNatLT _ hfits, rfl⟩
    rw [← hc] at he
    have hmsg := toList_bufOf_counterBytes c
    refine ⟨c, _, _, he, hc, ?_, ?_, hmsg⟩
    · rw [wordAt, hmsg]
      exact (by decide : joinBytes 0 0 0 0 = 0)
    · rw [wordAt, hmsg]
      exact joinBytes_lane c

/-- Settles O27: neither way COUNTER faults is open, since 2^32 such periods are longer than any TIME_MS. -/
theorem longPeriodsNeverOverflowTheCounter : Obligations.LongPeriodsNeverOverflowTheCounter := by
  unfold Obligations.LongPeriodsNeverOverflowTheCounter
  intro s hlong
  obtain ⟨hzero, -⟩ | ⟨hne, hlimit, -⟩ | ⟨-, -, he⟩ := exec_counter_cases s
  · have hzero : s.period.toNat = 0 := congrArg BitVec.toNat hzero
    omega
  · have hreached : 2 ^ 32 * 1000 * s.period.toNat ≤ s.timeMs.toNat :=
      (le_counterOf_iff (BitVec.toNat_ne.1 hne) _).1 hlimit
    have htime := s.timeMs.isLt
    omega
  · exact ⟨_, he, finish_status _⟩

end Sys2Proof.Machine
end

section
/-! PROOFS. The padded message of SHA-1 and its blocks (spec/42_hmac_sha1.md R123). -/

namespace Sys2Proof.Machine

/-- The padding fills whole blocks: `N = (L + 8) div 64 + 1` of them (R123). -/
theorem length_sha1Pad (m : List Byte) : (sha1Pad m).length = 64 * ((m.length + 8) / 64 + 1) := by
  simp only [sha1Pad, List.length_append, List.length_cons, List.length_nil, List.length_replicate, length_bytesBe]
  omega

@[simp] theorem length_blocksOf (n : Nat) (bs : List Byte) : (blocksOf n bs).length = n := by
  induction n generalizing bs with
  | zero => rfl
  | succ n ih => rw [blocksOf, List.length_cons, ih]

/-- The blocks of a byte sequence in order: block `i` is its bytes `64 * i` to `64 * i + 63` (R123). -/
theorem blocksOf_succ (n : Nat) (bs : List Byte) :
    blocksOf (n + 1) bs = blocksOf n bs ++ [(bs.drop (64 * n)).take 64] := by
  induction n generalizing bs with
  | zero => rfl
  | succ n ih =>
    rw [blocksOf, ih, blocksOf, List.drop_drop, List.cons_append, Nat.mul_succ, Nat.add_comm]

/-- The blocks join to the bytes they were taken from. -/
theorem flatten_blocksOf (n : Nat) (bs : List Byte) : (blocksOf n bs).flatten = bs.take (64 * n) := by
  induction n with
  | zero => rfl
  | succ n ih => rw [blocksOf_succ, List.flatten_append, ih, List.flatten_singleton, Nat.mul_succ, List.take_add]

/-- Every block is full where the byte sequence is long enough. -/
theorem length_of_mem_blocksOf {n : Nat} {bs b : List Byte} (hlen : 64 * n ≤ bs.length) (hb : b ∈ blocksOf n bs) :
    b.length = 64 := by
  induction n with
  | zero => cases hb
  | succ n ih =>
    rw [blocksOf_succ, List.mem_append, List.mem_singleton] at hb
    obtain hb | rfl := hb
    · exact ih (by omega) hb
    · rw [List.length_take, List.length_drop]
      omega

end Sys2Proof.Machine
end

section
/-! PROOFS. The message schedule (spec/42_hmac_sha1.md R124): the model computes it newest first, each word from those before
it, so a word keeps its place from the oldest end while newer words are put in front. -/

namespace Sys2Proof.Machine

/-- The next word goes in front of the words computed so far (R124). -/
theorem sha1Extend_succ (n : Nat) (ws : List Word) :
    sha1Extend (n + 1) ws = sha1NextW (sha1Extend n ws) :: sha1Extend n ws := by
  induction n generalizing ws with
  | zero => rfl
  | succ n ih => exact ih (sha1NextW ws :: ws)

/-- Further words leave those computed so far in place. -/
theorem sha1Extend_suffix {m n : Nat} (h : m ≤ n) (ws : List Word) : sha1Extend m ws <:+ sha1Extend n ws := by
  induction h with
  | refl => exact List.suffix_rfl
  | step _ ih =>
    rw [sha1Extend_succ]
    exact ih.trans (List.suffix_cons _ _)

/-- The sixteen words of a block and `n` computed ones, newest first (R124). -/
def newestWords (block : List Byte) (n : Nat) : List Word :=
  sha1Extend n ((List.range 16).map fun t => be32 block (4 * t)).reverse

section
variable (block : List Byte) {n : Nat}

theorem newestWords_succ (n : Nat) :
    newestWords block (n + 1) = sha1NextW (newestWords block n) :: newestWords block n := sha1Extend_succ _ _

@[simp] theorem length_newestWords (n : Nat) : (newestWords block n).length = n + 16 := by
  induction n with
  | zero => simp [newestWords, sha1Extend]
  | succ n ih => rw [newestWords_succ, List.length_cons, ih, Nat.add_right_comm]

@[simp] theorem length_sha1Schedule : (sha1Schedule block).length = 80 :=
  List.length_reverse.trans (length_newestWords block 64)

/-- The schedule counts from the oldest word, `newestWords` from the newest one. -/
theorem getD_sha1Schedule (hn : n ≤ 64) {k : Nat} (hk : k < n + 16) :
    (sha1Schedule block).getD (n + 15 - k) 0 = (newestWords block n).getD k 0 := by
  obtain ⟨newer, hnewer⟩ : newestWords block n <:+ newestWords block 64 := sha1Extend_suffix hn _
  have hschedule : sha1Schedule block = (newestWords block n).reverse ++ newer.reverse := by
    rw [← List.reverse_append, hnewer]
    rfl
  have hlen := length_newestWords block n
  rw [hschedule, List.getD_append _ _ _ _ (by rw [List.length_reverse]; omega), List.getD_reverse _ (by omega), hlen]
  congr 1
  omega

/-- The words of the block itself (R124). -/
theorem getD_sha1Schedule_block {t : Nat} (ht : t ≤ 15) : (sha1Schedule block).getD t 0 = be32 block (4 * t) := by
  have hplace : 15 - (15 - t) = t := Nat.sub_sub_self ht
  have h := getD_sha1Schedule block (n := 0) (by decide) (k := 15 - t) (by omega)
  rw [Nat.zero_add, hplace, newestWords, sha1Extend, List.getD_reverse _ (by simp; omega)] at h
  rw [h]
  simp [hplace, List.getD_eq_getElem?_getD, Nat.lt_succ_of_le ht]

/-- The computed words (R124). -/
theorem getD_sha1Schedule_next (hn : n < 64) :
    (sha1Schedule block).getD (n + 16) 0 = sha1NextW (newestWords block n) := by
  have h := getD_sha1Schedule block (n := n + 1) hn (k := 0) (by omega)
  rwa [newestWords_succ] at h

end

end Sys2Proof.Machine
end

section
/-! PROOFS. The rounds of a compression and the compressions of a message, state by state (spec/42_hmac_sha1.md R122, R125 to
R127). -/

namespace Sys2Proof.Machine

theorem sha1Rounds_append (t : Nat) (us ws : List Word) (v : Chain) :
    sha1Rounds t (us ++ ws) v = sha1Rounds (t + us.length) ws (sha1Rounds t us v) := by
  induction us generalizing t v with
  | nil => rfl
  | cons u us ih =>
    rw [List.cons_append, sha1Rounds, ih, sha1Rounds, List.length_cons, Nat.add_right_comm, Nat.add_assoc]

/-- The working variables after the first `t` rounds of a compression (R126). -/
def workingVars (h : Chain) (block : List Byte) (t : Nat) : Chain := sha1Rounds 0 ((sha1Schedule block).take t) h

/-- Round `t` takes the schedule's word `t` (R126). -/
theorem workingVars_succ (h : Chain) (block : List Byte) {t : Nat} (ht : t < 80) :
    workingVars h block (t + 1) = sha1Round t ((sha1Schedule block).getD t 0) (workingVars h block t) := by
  have hlen : t < (sha1Schedule block).length := by rwa [length_sha1Schedule]
  rw [workingVars, ← List.take_append_getElem hlen, sha1Rounds_append, List.length_take_of_le hlen.le, Nat.zero_add,
    List.getD_eq_getElem _ _ hlen]
  rfl

/-- All the rounds of a compression (R126). -/
theorem workingVars_eighty (h : Chain) (block : List Byte) :
    workingVars h block 80 = sha1Rounds 0 (sha1Schedule block) h := by
  rw [workingVars, List.take_of_length_le (length_sha1Schedule block).le]

/-- The chaining value after the first `i` blocks of a padded message (R127). -/
def chainAfter (m : List Byte) (i : Nat) : Chain := (blocksOf i (sha1Pad m)).foldl compress sha1Init

theorem chainAfter_succ (m : List Byte) (i : Nat) :
    chainAfter m (i + 1) = compress (chainAfter m i) (((sha1Pad m).drop (64 * i)).take 64) := by
  rw [chainAfter, blocksOf_succ, List.foldl_append]
  rfl

/-- The bytes of a chaining value are the lanes of its words (R127). -/
theorem chainBytes_eq_flatMap (h : Chain) :
    h.bytes = [h.a, h.b, h.c, h.d, h.e].flatMap fun w => [lane w 0, lane w 1, lane w 2, lane w 3] := by
  simp only [Chain.bytes, bytesBe_toNat]
  rfl

/-! The round function by its range of rounds (R125). -/

section
variable {t : Nat} (x y z : Word)

theorem sha1F_choose (ht : t ≤ 19) : sha1F t x y z = (x &&& y) ||| (~~~x &&& z) := if_pos ht

theorem sha1F_majority (hfrom : 40 ≤ t) (hto : t ≤ 59) :
    sha1F t x y z = (x &&& y) ||| (x &&& z) ||| (y &&& z) := by
  rw [sha1F, if_neg (by omega), if_neg (by omega), if_pos hto]

theorem sha1F_parity (ht : (20 ≤ t ∧ t ≤ 39) ∨ (60 ≤ t ∧ t ≤ 79)) : sha1F t x y z = x ^^^ y ^^^ z := by
  rw [sha1F, if_neg (by omega)]
  obtain ⟨-, hto⟩ | ⟨hfrom, -⟩ := ht
  · rw [if_pos hto]
  · rw [if_neg (by omega), if_neg (by omega)]

end

/-! The three functions on the bits at one place (R125). -/

theorem bool_choose (a b c : Bool) : (a && b || !a && c) = if a then b else c := by
  cases a <;> simp

theorem bool_majority_iff (a b c : Bool) :
    (a && b || a && c || b && c) = true ↔ 2 ≤ a.toNat + b.toNat + c.toNat := by
  revert a b c
  decide

theorem bool_parity_iff (a b c : Bool) : (a ^^ b ^^ c) = true ↔ (a.toNat + b.toNat + c.toNat) % 2 = 1 := by
  revert a b c
  decide

end Sys2Proof.Machine
end

section
/-! PROOFS. The key block of HMAC (spec/42_hmac_sha1.md R129). -/

namespace Sys2Proof.Machine

section
variable {key : List Byte}

theorem hmacKey0_of_long (h : 64 < key.length) : hmacKey0 key = sha1 key ++ List.replicate 44 0 := if_pos h

theorem hmacKey0_of_short (h : key.length ≤ 64) : hmacKey0 key = key ++ List.replicate (64 - key.length) 0 :=
  if_neg (Nat.not_lt.2 h)

theorem length_hmacKey0 (key : List Byte) : (hmacKey0 key).length = 64 := by
  obtain hlong | hshort := Nat.lt_or_ge 64 key.length
  · rw [hmacKey0_of_long hlong, List.length_append, length_sha1, List.length_replicate]
  · rw [hmacKey0_of_short hshort, List.length_append, List.length_replicate, Nat.add_sub_cancel' hshort]

/-- A long key has the key block of its hash. -/
theorem hmacKey0_sha1 (h : 64 < key.length) : hmacKey0 (sha1 key) = hmacKey0 key := by
  have hhash : (sha1 key).length ≤ 64 := by rw [length_sha1]; decide
  rw [hmacKey0_of_long h, hmacKey0_of_short hhash, length_sha1]

/-- A key shorter than the block has the key block of the key with a zero after it. -/
theorem hmacKey0_append_zero (h : key.length < 64) : hmacKey0 (key ++ [0]) = hmacKey0 key := by
  have hlen : (key ++ [0]).length = key.length + 1 := List.length_append
  have hzeros : 64 - key.length = 64 - (key.length + 1) + 1 := by omega
  rw [hmacKey0_of_short h.le, hmacKey0_of_short (by omega), hlen, hzeros, List.replicate_succ, List.append_assoc,
    List.singleton_append]

/-- A key enters HMAC by its key block alone. -/
theorem hmacSha1_congr {key' : List Byte} (h : hmacKey0 key = hmacKey0 key') (msg : List Byte) :
    hmacSha1 key msg = hmacSha1 key' msg := by
  rw [hmacSha1, hmacSha1, h]

end

end Sys2Proof.Machine
end

section
/-! PROOFS. The statements about SHA-1 and HMAC (spec/42_hmac_sha1.md). -/

namespace Sys2Proof.Machine

/-- Settles O32: the blocks join to the bytes they cover, and they cover the padded message exactly. -/
theorem paddingFillsWholeBlocks : Obligations.PaddingFillsWholeBlocks := by
  unfold Obligations.PaddingFillsWholeBlocks
  intro m
  have hpad : (sha1Pad m).length = 64 * ((m.length + 8) / 64 + 1) := length_sha1Pad m
  refine ⟨⟨(119 - m.length % 64) % 64, rfl, by omega, by omega⟩, hpad, length_blocksOf _ _, ?_,
    fun _ => length_of_mem_blocksOf hpad.ge⟩
  rw [sha1Blocks, flatten_blocksOf, List.take_of_length_le hpad.le]

/-- Settles O33: word `t` is computed when `t` words are known, and they keep their places. -/
theorem messageScheduleRecurrence : Obligations.MessageScheduleRecurrence := by
  unfold Obligations.MessageScheduleRecurrence
  intro b
  refine ⟨length_sha1Schedule b, fun _ => getD_sha1Schedule_block b, fun t hfrom hto => ?_⟩
  obtain ⟨n, rfl⟩ := Nat.exists_eq_add_of_le' hfrom
  have hback {k : Nat} (hk : k < 16) : (newestWords b n).getD k 0 = (sha1Schedule b).getD (n + 15 - k) 0 :=
    (getD_sha1Schedule b (by omega) (by omega)).symm
  rw [getD_sha1Schedule_next b (by omega), sha1NextW, hback (by decide), hback (by decide), hback (by decide),
    hback (by decide)]
  rfl

/-- Settles O35: the working variables after each round. -/
theorem compressionIsEightyRounds : Obligations.CompressionIsEightyRounds := by
  unfold Obligations.CompressionIsEightyRounds
  intro h block
  refine ⟨workingVars h block, rfl, fun t ht => ?_, ?_⟩
  · rw [workingVars_succ h block ht]
    exact ⟨rfl, rfl, rfl, rfl, rfl⟩
  · rw [workingVars_eighty]
    rfl

/-- Settles O36: a key enters by its key block, the same for a long key and its hash and with or without a zero added. -/
theorem hmacPadsOrHashesTheKey : Obligations.HmacPadsOrHashesTheKey :=
  fun key msg => ⟨length_hmacKey0 key,
    fun hlong => ⟨hmacKey0_of_long hlong, hmacSha1_congr (hmacKey0_sha1 hlong).symm msg⟩,
    hmacKey0_of_short, fun hshort => hmacSha1_congr (hmacKey0_append_zero hshort) msg, rfl, length_hmacSha1 key msg⟩

/-- Settles O60: the chaining values after each block, and the constants row by row of R122. -/
theorem sha1CompressesTheBlocksFromTheConstants : Obligations.Sha1CompressesTheBlocksFromTheConstants := by
  unfold Obligations.Sha1CompressesTheBlocksFromTheConstants
  refine ⟨fun m => ⟨chainAfter m, rfl, fun i _ => chainAfter_succ m i, chainBytes_eq_flatMap _⟩, fun t =>
    ⟨fun hto => ?_, fun hfrom hto => ?_, fun hfrom hto => ?_, fun hfrom _ => ?_⟩⟩ <;> rw [sha1K]
  · rw [if_pos hto]
  · rw [if_neg (by omega), if_pos hto]
  · rw [if_neg (by omega), if_neg (by omega), if_pos hto]
  · rw [if_neg (by omega), if_neg (by omega), if_neg (by omega)]

/-- Settles O34: each range's formula at one bit. -/
theorem roundFunctionsChooseParityMajority : Obligations.RoundFunctionsChooseParityMajority := by
  unfold Obligations.RoundFunctionsChooseParityMajority
  intro t x y z i hi
  refine ⟨fun ht => ?_, fun hfrom hto => ?_, fun ht => ?_⟩
  · rw [sha1F_choose x y z ht, BitVec.getLsbD_or, BitVec.getLsbD_and, BitVec.getLsbD_and, BitVec.getLsbD_not,
      decide_eq_true hi, Bool.true_and]
    exact bool_choose _ _ _
  · rw [sha1F_majority x y z hfrom hto, BitVec.getLsbD_or, BitVec.getLsbD_or, BitVec.getLsbD_and, BitVec.getLsbD_and,
      BitVec.getLsbD_and]
    exact bool_majority_iff _ _ _
  · rw [sha1F_parity x y z ht, BitVec.getLsbD_xor, BitVec.getLsbD_xor]
    exact bool_parity_iff _ _ _

/-- Settles O37: the hash has as many bytes as DIGEST. -/
theorem hmacWritesTheDigest : Obligations.HmacWritesTheDigest :=
  fun _ => ⟨_, _, rfl, toList_bufOf _ (length_hmacSha1 _ _)⟩

end Sys2Proof.Machine
end

section
/-! PROOFS. The truncated value and the code string as numbers (spec/43_truncation.md R150 to R154). -/

namespace Sys2Proof.Machine

/-- A concatenation as a number: the low part counts below the weight of the high part. -/
theorem toNat_append_eq_add {m n : Nat} (x : BitVec m) (y : BitVec n) :
    (x ++ y).toNat = x.toNat * 2 ^ n + y.toNat := by
  rw [BitVec.toNat_append, ← Nat.shiftLeft_add_eq_or_of_lt y.isLt, Nat.shiftLeft_eq]

/-- Four joined bytes as a number, most significant first (R7). -/
theorem toNat_joinBytes (b0 b1 b2 b3 : Byte) :
    (joinBytes b0 b1 b2 b3).toNat = b0.toNat * 2 ^ 24 + b1.toNat * 2 ^ 16 + b2.toNat * 2 ^ 8 + b3.toNat := by
  simp only [joinBytes, toNat_append_eq_add]
  omega

/-- The mask of the four low bits is reduction modulo 16 (R150). -/
theorem dtOffset_eq_mod (d : List Byte) : dtOffset d = (d.getD 19 0).toNat % 16 := by
  rw [dtOffset, BitVec.toNat_and]
  exact Nat.and_two_pow_sub_one_eq_mod _ 4

theorem dtBinary_eq_be32_and (d : List Byte) : dtBinary d = be32 d ((d.getD 19 0).toNat % 16) &&& 0x7FFFFFFF := by
  rw [dtBinary, dtOffset_eq_mod]

/-- The truncated value from its four bytes: dropping bit 31 is dropping the top bit of the first byte (R151). -/
theorem toNat_dtBinary_eq_bytes (d : List Byte) :
    (dtBinary d).toNat = (d.getD (dtOffset d) 0).toNat % 128 * 2 ^ 24 + (d.getD (dtOffset d + 1) 0).toNat * 2 ^ 16 +
      (d.getD (dtOffset d + 2) 0).toNat * 2 ^ 8 + (d.getD (dtOffset d + 3) 0).toNat := by
  rw [toNat_dtBinary, be32, toNat_joinBytes]
  omega

section
variable (n : Nat)

/-- The character of a decimal digit (R153). -/
theorem toNat_digitChar : (BitVec.ofNat 8 (0x30 + n % 10)).toNat = 0x30 + n % 10 := by
  rw [BitVec.toNat_ofNat]
  omega

/-- The six characters of the code string, one by one (R153). -/
theorem getD_codeStrOf {i : Nat} (hi : i < 6) :
    (codeStrOf n).getD i 0 = BitVec.ofNat 8 (0x30 + n / 10 ^ (5 - i) % 10) := by
  simp [codeStrOf, List.getD_eq_getElem?_getD, hi]

theorem all_isDigit_codeStrOf : (codeStrOf n).all isDigit = true := by
  rw [List.all_eq_true, codeStrOf, List.forall_mem_map]
  intro i _
  simp only [isDigit, toNat_digitChar, Bool.and_eq_true, decide_eq_true_iff]
  omega

/-- One more digit makes ten times the number and the digit. -/
theorem decimalValue_append_singleton (ds : List Byte) (c : Byte) :
    decimalValue (ds ++ [c]) = 10 * decimalValue ds + (c.toNat - 0x30) := by
  rw [decimalValue, List.foldl_append]
  rfl

variable {n}

/-- The first `j` digits of the code string stand for the code without its last `6 - j` digits (R153). -/
theorem decimalValue_take_codeStrOf (hn : n < 10 ^ 6) {j : Nat} (hj : j ≤ 6) :
    decimalValue ((codeStrOf n).take j) = n / 10 ^ (6 - j) := by
  induction j with
  | zero => exact (Nat.div_eq_of_lt hn).symm
  | succ j ih =>
    have htake : (codeStrOf n).take (j + 1) = (codeStrOf n).take j ++ [(codeStrOf n).getD j 0] := by
      rw [List.take_add_one, List.getD_eq_getElem?_getD, List.getElem?_eq_getElem (by rw [length_codeStrOf]; omega)]
      rfl
    have hshift : n / 10 ^ (6 - j) = n / 10 ^ (5 - j) / 10 := by
      rw [Nat.div_div_eq_div_mul, ← pow_succ, show 5 - j + 1 = 6 - j by omega]
    rw [htake, decimalValue_append_singleton, ih (by omega), getD_codeStrOf n (by omega), toNat_digitChar, hshift,
      Nat.add_sub_cancel_left, Nat.div_add_mod, show 6 - (j + 1) = 5 - j by omega]

theorem decimalValue_codeStrOf (hn : n < 10 ^ 6) : decimalValue (codeStrOf n) = n := by
  have h := decimalValue_take_codeStrOf hn (Nat.le_refl 6)
  rwa [List.take_of_length_le (length_codeStrOf n).le, Nat.sub_self, pow_zero, Nat.div_one] at h

end

/-- CODE_STR after a truncation is the text of CODE (R154). -/
theorem toList_withCode_codeStr (d : List Byte) (s : State) :
    (withCode d s).codeStr.toList = codeStrOf (withCode d s).code.toNat := by
  rw [withCode_codeStr, withCode_code, toNat_code, toList_bufOf _ (length_codeStrOf _)]

/-- A TRUNC or GENERATE that ends with DONE = 1 truncates the DIGEST it leaves: GENERATE's hash has as many bytes as DIGEST
(R154, R165). -/
theorem exists_eq_finish_withCode_of_done {i : Instr} {s t : State} (hi : i = .trunc ∨ i = .generate)
    (he : exec i s = .next t) (hdone : t.status.done = true) : ∃ u, t = finish (withCode u.digest.toList u) := by
  obtain rfl | rfl := hi
  · cases he
    exact ⟨s, rfl⟩
  · obtain ⟨-, hx⟩ | ⟨-, -, hx⟩ | ⟨-, -, k, m, d, -, -, hd, hx⟩ := exec_generate_cases s <;> cases he.symm.trans hx
    · cases hdone
    · cases hdone
    · have hdigest := toList_bufOf d (hd ▸ length_hmacSha1 k m)
      exact ⟨{ s with key := bufOf 80 k, keyLen := BitVec.ofNat 32 k.length, msg := bufOf 8 m, digest := bufOf 20 d },
        congrArg (fun d' => finish (withCode d' _)) hdigest.symm⟩

end Sys2Proof.Machine
end

section
/-! PROOFS. The statements about truncation and TRUNC (spec/43_truncation.md). -/

namespace Sys2Proof.Machine

/-- Settles O38: the offset is below 16, and the value is read from the four bytes there. -/
theorem truncationTakesThirtyOneBits : Obligations.TruncationTakesThirtyOneBits := by
  unfold Obligations.TruncationTakesThirtyOneBits
  intro d
  have hoffset := dtOffset_eq_mod d
  exact ⟨hoffset, by omega, by omega, rfl, toNat_dtBinary_eq_bytes d, dtBinary_lt d⟩

/-- Settles O39: the digits one by one, and their value by the prefixes of the string. -/
theorem codeStringIsSixDigitsOfTheCode : Obligations.CodeStringIsSixDigitsOfTheCode :=
  fun n hn => ⟨length_codeStrOf n, all_isDigit_codeStrOf n, decimalValue_codeStrOf hn,
    fun _ hi => (congrArg BitVec.toNat (getD_codeStrOf n hi)).trans (toNat_digitChar _)⟩

/-- Settles O41: such a completion is a truncation of the DIGEST it leaves. -/
theorem codeRegistersAreConsistent : Obligations.CodeRegistersAreConsistent := by
  unfold Obligations.CodeRegistersAreConsistent
  intro i s t hi he hdone
  obtain ⟨u, rfl⟩ := exists_eq_finish_withCode_of_done hi he hdone
  exact ⟨dtBinary_lt _, toNat_code _, toList_withCode_codeStr _ u, dtBinary_eq_be32_and _⟩

/-- Settles O40: the three results are those of `withCode` for DIGEST. -/
theorem truncWritesTheCode : Obligations.TruncWritesTheCode :=
  fun s => ⟨_, _, _, _, rfl, dtBinary_eq_be32_and _, toNat_code _, toList_withCode_codeStr s.digest.toList s⟩

end Sys2Proof.Machine
end

section
/-! PROOFS. What GENERATE and its four stages leave without a fault, the key and the counter being those of GENERATE
(spec/44_generate.md R165, R166). -/

namespace Sys2Proof.Machine

/-- The completion of GENERATE without a fault, from the key `k` and the counter `c` (R165). -/
def generated (k : List Byte) (c : Nat) (s : State) : State :=
  let d := hmacSha1 k (counterBytes c)
  finish (withCode d { s with
    key := bufOf 80 k, keyLen := BitVec.ofNat 32 k.length, msg := bufOf 8 (counterBytes c), digest := bufOf 20 d })

/-- The counter of period 30 leaves 32 bits at TIME_MS = 2^32 * 30000 (R165). -/
theorem counterLimit_le_counterOf_thirty_iff (t : Nat) :
    Config.counterLimit ≤ counterOf t Config.genPeriod ↔ 2 ^ 32 * 30000 ≤ t :=
  le_counterOf_iff (by decide) _

section
variable {s : State} (hlen : s.secretLen.toNat ≤ 128)
include hlen

theorem exec_generate_of_no_fault (htime : s.timeMs.toNat < 2 ^ 32 * 30000) :
    exec .generate s = .next (generated (b32decode (secretText s)) (s.timeMs.toNat / 30000) s) := by
  obtain ⟨hlong, -⟩ | ⟨-, hlimit, -⟩ | ⟨-, -, _, _, _, rfl, rfl, rfl, he⟩ := exec_generate_cases s
  · exact absurd hlong (Nat.not_lt.2 hlen)
  · exact absurd ((counterLimit_le_counterOf_thirty_iff _).1 hlimit) (Nat.not_le.2 htime)
  · exact he

theorem exec_decode_of_no_fault : exec .decode s = .next (finish { s with
    key := bufOf 80 (b32decode (secretText s)), keyLen := BitVec.ofNat 32 (b32decode (secretText s)).length }) := by
  obtain ⟨hlong, -⟩ | ⟨-, he⟩ := exec_decode_cases s
  · exact absurd hlong (Nat.not_lt.2 hlen)
  · exact he

end

/-- COUNTER with PERIOD = 30 uses the counter of GENERATE (R103, R165). -/
theorem exec_counter_of_thirty {s : State} (hperiod : s.period = 30) (htime : s.timeMs.toNat < 2 ^ 32 * 30000) :
    exec .counter s = .next (finish { s with msg := bufOf 8 (counterBytes (s.timeMs.toNat / 30000)) }) := by
  have hcounter : counterOf s.timeMs.toNat s.period.toNat = counterOf s.timeMs.toNat Config.genPeriod := by
    rw [hperiod]
    rfl
  obtain ⟨hzero, -⟩ | ⟨-, hlimit, -⟩ | ⟨-, -, he⟩ := exec_counter_cases s
  · exact absurd (hperiod.symm.trans hzero) (by decide)
  · exact absurd ((counterLimit_le_counterOf_thirty_iff _).1 (hcounter ▸ hlimit)) (Nat.not_le.2 htime)
  · rwa [hcounter] at he

/-- HMAC takes the key from KEY and KEYLEN and the message from MSG (R130). -/
theorem exec_hmac_of_inputs {s : State} {k m : List Byte} (hkey : keyBytes s = k) (hmsg : s.msg.toList = m) :
    exec .hmac s = .next (finish { s with digest := bufOf 20 (hmacSha1 k m) }) := by
  rw [← hkey, ← hmsg]
  rfl

/-- TRUNC takes the digest from DIGEST (R154). -/
theorem exec_trunc_of_digest {s : State} {d : List Byte} (hdigest : s.digest.toList = d) :
    exec .trunc s = .next (finish (withCode d s)) := by
  rw [← hdigest]
  rfl

/-- The key that DECODE leaves, as HMAC reads it back from KEY and KEYLEN (R85, R130). -/
theorem keyBytes_of_decoded {s t : State} (hkey : t.key = bufOf 80 (b32decode (secretText s)))
    (hlen : t.keyLen = BitVec.ofNat 32 (b32decode (secretText s)).length) : keyBytes t = b32decode (secretText s) := by
  rw [keyBytes, hkey, hlen, toNat_length_b32decode_secretText]
  exact take_bufOf _ (length_b32decode_le (length_secretText_le s))

end Sys2Proof.Machine
end

section
/-! PROOFS. A command issued through CMD, and the engine's turn after it (spec/30_encoding.md R63, R64). -/

namespace Sys2Proof.Machine

/-- The state in which the engine completes `i`: the host has issued it, and the turns in `rest` are left (R63). -/
def issued (i : Instr) (rest : List Turn) (s : State) : State :=
  { s with curCmd := encode i, status := s.status.accepted, schedule := rest, answers := s.answers ++ [.ok] }

/-- Issuing a command in an idle block without a fault and waiting for it is its completion step (R63, R64). -/
theorem run_two_issue {i : Instr} {s t : State} {rest : List Turn} (hidle : s.status.busy = false)
    (hfault : s.status.fault = false) (hs : s.schedule = .write 0x000 4 (encode i) :: .engine :: rest)
    (he : exec i (issued i rest s) = .next t) : Host.Core.run core 2 s = .next t := by
  refine (run_succ (step_of_accepted_write hidle (.inl hfault) hs) 1).trans ((run_one _).trans ?_)
  exact (((step_of_busy rfl).2 rest rfl).trans (complete_of_command rfl)).trans he

end Sys2Proof.Machine
end

section
/-! PROOFS. The statements about GENERATE (spec/44_generate.md). -/

namespace Sys2Proof.Machine

/-- Settles O42: the three ways GENERATE ends; without a fault the counter fits a word. -/
theorem generateWritesEveryStage : Obligations.GenerateWritesEveryStage := by
  unfold Obligations.GenerateWritesEveryStage
  intro s
  obtain ⟨hlong, he⟩ | ⟨hlen, hlimit, he⟩ | ⟨hlen, hfits, k, m, d, hk, rfl, hd, he⟩ := exec_generate_cases s
  · have hlong := Nat.not_le.2 hlong
    exact ⟨fun _ => ⟨_, he⟩, fun h => absurd h hlong, fun h => absurd h hlong⟩
  · have hlate := (counterLimit_le_counterOf_thirty_iff _).1 hlimit
    exact ⟨fun h => absurd hlen (Nat.not_le.2 h), fun _ _ => ⟨_, he⟩, fun _ h => absurd hlate (Nat.not_le.2 h)⟩
  · refine ⟨fun h => absurd hlen (Nat.not_le.2 h),
      fun _ h => absurd ((counterLimit_le_counterOf_thirty_iff _).2 h) (Nat.not_le.2 hfits), fun _ _ => ?_⟩
    obtain ⟨c, hc⟩ : ∃ c : Word, c.toNat = counterOf s.timeMs.toNat 30 := ⟨.ofNatLT _ hfits, rfl⟩
    rw [← hc] at hd he
    exact ⟨k, d, c, dtBinary d, _, he, hk, hc, hd, dtBinary_eq_be32_and d⟩

/-- Settles O43: the four stages one after the other; HMAC reads back the key and the message, and TRUNC the digest, that the
stages before them wrote. -/
theorem generateIsTheCompositionOfTheStages : Obligations.GenerateIsTheCompositionOfTheStages := by
  unfold Obligations.GenerateIsTheCompositionOfTheStages
  intro s hidle hfault hlen hperiod htime
  have hgenerate := run_two_issue (i := .generate) (s := { s with schedule := [.write 0 4 5, .engine] })
    hidle hfault rfl (exec_generate_of_no_fault hlen htime)
  have hdecode := run_two_issue (i := .decode) (s := { s with schedule := [.write 0 4 1, .engine, .write 0 4 2, .engine,
    .write 0 4 3, .engine, .write 0 4 4, .engine] }) hidle hfault rfl (exec_decode_of_no_fault hlen)
  have hcounter := (run_add hdecode 2).trans
    (run_two_issue (i := .counter) rfl hfault rfl (exec_counter_of_thirty hperiod htime))
  have hhmac := (run_add hcounter 2).trans (run_two_issue (i := .hmac) rfl hfault rfl
    (exec_hmac_of_inputs (keyBytes_of_decoded (s := s) rfl rfl) (toList_bufOf _ (length_counterBytes _))))
  have htrunc := (run_add hhmac 2).trans (run_two_issue (i := .trunc) rfl hfault rfl
    (exec_trunc_of_digest (toList_bufOf _ (length_hmacSha1 _ _))))
  exact ⟨_, _, htrunc, hgenerate, rfl, rfl, rfl, rfl, rfl, rfl, rfl, rfl, rfl⟩

/-- Settles O44: GENERATE without a fault ends with a code string. -/
theorem generateNeverFailsOnContent : Obligations.GenerateNeverFailsOnContent := by
  unfold Obligations.GenerateNeverFailsOnContent
  intro s hfault hlen htime
  refine ⟨_, exec_generate_of_no_fault hlen htime, rfl, hfault, rfl, ?_⟩
  exact (toList_bufOf _ (length_codeStrOf _)).symm ▸ all_isDigit_codeStrOf _

/-- Settles O45: the results of `generated` are terms in the key and the counter. -/
theorem generateDependsOnSecretAndWindowAlone : Obligations.GenerateDependsOnSecretAndWindowAlone := by
  unfold Obligations.GenerateDependsOnSecretAndWindowAlone
  intro s₁ s₂ t₁ t₂ hlen₁ hlen₂ htime₁ htime₂ hkey hwindow h₁ h₂
  cases h₁.symm.trans (exec_generate_of_no_fault hlen₁ htime₁)
  cases h₂.symm.trans (exec_generate_of_no_fault hlen₂ htime₂)
  rw [hkey, hwindow]
  exact ⟨rfl, rfl, rfl, rfl, rfl, rfl, rfl⟩

end Sys2Proof.Machine
end

section
/-! PROOFS. The statements about WIPE (spec/45_system_wipe.md): it answers the cleared block, which takes nothing from the
block before it but the model's own fields (log 6). -/

namespace Sys2Proof.Machine

/-- WIPE's completion step clears the block (R180). -/
theorem exec_wipe (s : State) : exec .wipe s = .next (clearBlock s) := rfl

/-- Of the block it clears, `clearBlock` reads the model's own fields alone. -/
theorem clearBlock_congr {s₁ s₂ : State} (hschedule : s₁.schedule = s₂.schedule) (hanswers : s₁.answers = s₂.answers)
    (hfree : s₁.freeReads = s₂.freeReads) : clearBlock s₁ = clearBlock s₂ := by
  rw [clearBlock, clearBlock, hschedule, hanswers, hfree]

/-- Settles O46: the statement writes out the fields of the cleared block. -/
theorem wipeClearsEveryRegister : Obligations.WipeClearsEveryRegister := by
  unfold Obligations.WipeClearsEveryRegister
  exact exec_wipe

/-- Settles O47: both WIPEs answer the same state, so every run from there is one run. -/
theorem wipeForgetsEverything : Obligations.WipeForgetsEverything := by
  unfold Obligations.WipeForgetsEverything
  intro s₁ s₂ t₁ t₂ hschedule hanswers hfree h₁ h₂ k
  cases h₁.symm.trans (exec_wipe s₁)
  cases h₂.symm.trans (exec_wipe s₂)
  rw [clearBlock_congr hschedule hanswers hfree]

end Sys2Proof.Machine
end

section
/-! PROOFS. A recorded fault and the steps after it (spec/60_exceptions.md R196): no host transaction touches FAULT or FCODE,
and the one command that completes while FAULT = 1 is WIPE. -/

namespace Sys2Proof.Machine

/-- FAULT and FCODE of `g` are those of `f`. -/
structure SameFault (f g : Status) : Prop where
  fault : g.fault = f.fault
  fcode : g.fcode = f.fcode

theorem SameRegisters.sameFault {s t : State} (h : SameRegisters s t) : SameFault s.status t.status :=
  ⟨congrArg Status.fault h.status, congrArg Status.fcode h.status⟩

/-- Acceptance writes BUSY and DONE only (R63). -/
theorem acceptCommand_sameFault (w : Word) (s : State) : SameFault s.status (acceptCommand w s).status := by
  obtain ⟨-, h⟩ | ⟨-, -, -, h⟩ | ⟨-, -, h⟩ := acceptCommand_cases w s <;> rw [h] <;> exact ⟨rfl, rfl⟩

theorem writeReg_sameFault (r : Reg) (v : Word) (s : State) : SameFault s.status (writeReg r v s).status := by
  by_cases hr : r = .cmd
  · subst hr
    exact acceptCommand_sameFault v s
  · obtain ⟨hstatus, -⟩ := writeReg_frame r v s hr
    rw [hstatus]
    exact ⟨rfl, rfl⟩

/-- "There is no write-one-to-clear bit" (R196). -/
theorem hostWrite_sameFault (off bytes : Nat) (v : Word) (s : State) :
    SameFault s.status (hostWrite off bytes v s).status := by
  obtain ⟨-, h⟩ | ⟨r, -, -, h⟩ | ⟨r, -, -, h⟩ := hostWrite_cases off bytes v s <;> rw [h, answer_status]
  · exact ⟨rfl, rfl⟩
  · exact ⟨rfl, rfl⟩
  · exact writeReg_sameFault r v s

/-- A step keeps FAULT and FCODE, clears the block by a reset turn, or is a completion step. -/
theorem step_fault_cases {s t : State} (h : step s = .next t) :
    SameFault s.status t.status ∨
    (∃ rest, s.schedule = .reset :: rest ∧ t = clearBlock { s with schedule := rest }) ∨
    (s.status.busy = true ∧ EngineHasTheTurn s ∧ ∃ u, SameRegisters s u ∧ complete u = .next t) := by
  obtain ⟨off, bytes, rest, -, rfl⟩ | ⟨off, bytes, v, rest, -, rfl⟩ | hreset | ⟨u, hu, hstep⟩ := step_cases h
  · exact .inl (hostRead_sameRegisters off bytes { s with schedule := rest }).sameFault
  · exact .inl (hostWrite_sameFault off bytes v { s with schedule := rest })
  · exact .inr (.inl hreset)
  · have hturn : EngineHasTheTurn s := hu.imp (·.1) fun ⟨rest, hs, _⟩ => ⟨rest, hs⟩
    have hsame : SameRegisters s u := by
      obtain ⟨-, rfl⟩ | ⟨rest, -, rfl⟩ := hu <;> rfl
    obtain ⟨-, rfl⟩ | ⟨hbusy, hc⟩ := hstep
    · exact .inl hsame.sameFault
    · exact .inr (.inr ⟨hbusy, hturn, u, hsame, hc⟩)

/-- With a fault recorded the command in flight is WIPE (R63), so that a step keeps the fault or clears the block. -/
theorem step_keeps_fault_or_clears {s t : State} (hinv : s.Inv) (hfault : s.status.fault = true) (h : step s = .next t) :
    SameFault s.status t.status ∨ (SameRegisters State.reset t ∧ ClearsTheBlock s) := by
  obtain hsame | ⟨rest, hs, rfl⟩ | ⟨hbusy, hturn, u, hsame, hc⟩ := step_fault_cases h
  · exact .inl hsame
  · exact .inr ⟨rfl, .inl ⟨rest, hs⟩⟩
  · have hcmd : s.curCmd = encode .wipe := hinv.busy_in_fault hbusy hfault
    cases hc.symm.trans (complete_of_command (hsame.curCmd.trans hcmd))
    exact .inr ⟨rfl, .inr ⟨hbusy, hturn, hcmd⟩⟩

/-- While FAULT = 1 DONE is 0 (R13). -/
theorem State.Inv.done_of_fault {s : State} (h : s.Inv) (hfault : s.status.fault = true) : s.status.done = false :=
  Bool.eq_false_iff.2 fun hdone => by
    obtain ⟨-, hclear⟩ := h.done_alone hdone
    exact absurd (hfault.symm.trans hclear) (by decide)

/-- Settles O51: FAULT and FCODE by the two ways a step can go, and DONE by the invariant of the state after it. -/
theorem faultStaysUntilWipeOrReset : Obligations.FaultStaysUntilWipeOrReset := by
  unfold Obligations.FaultStaysUntilWipeOrReset
  intro s t hinv hfault h
  obtain ⟨hkept, hcode⟩ | hclears := step_keeps_fault_or_clears hinv hfault h
  · have hrecorded : t.status.fault = true := hkept.trans hfault
    exact .inl ⟨hrecorded, hcode, (stepKeepsTheRegisterRelations s t hinv h).done_of_fault hrecorded⟩
  · exact .inr hclears

end Sys2Proof.Machine
end

section
/-! PROOFS. The causes of every fault (spec/60_exceptions.md R190, R193, R195), and the faulted block at the port (R197). -/

namespace Sys2Proof.Machine

/-- How the completion of a command ends, by its causes: in the fault `faultOf` names, or after results are written, or,
for WIPE, with the block cleared. -/
theorem exec_by_causes (i : Instr) (s : State) :
    (∃ c, faultOf i s = some c ∧ exec i s = .next (raiseFault c s)) ∨
    (faultOf i s = none ∧ i ≠ .wipe ∧ ∃ u, exec i s = .next (finish u) ∧ u.status = s.status) ∨
    (faultOf i s = none ∧ i = .wipe ∧ exec i s = .next (clearBlock s)) := by
  cases i with
  | decode =>
    obtain ⟨hlong, he⟩ | ⟨hlen, he⟩ := exec_decode_cases s
    · exact .inl ⟨_, if_neg (Nat.not_le.2 hlong), he⟩
    · exact .inr (.inl ⟨if_pos hlen, nofun, _, he, rfl⟩)
  | counter =>
    obtain ⟨hzero, he⟩ | ⟨hne, hlimit, he⟩ | ⟨hne, hfits, he⟩ := exec_counter_cases s
    · exact .inl ⟨_, if_pos (congrArg BitVec.toNat hzero), he⟩
    · have hne := BitVec.toNat_ne.1 hne
      have hlate := (le_counterOf_iff hne _).1 hlimit
      exact .inl ⟨_, (if_neg hne).trans (if_neg (Nat.not_lt.2 hlate)), he⟩
    · have hne := BitVec.toNat_ne.1 hne
      have hearly := Nat.lt_of_not_le fun hlate => Nat.not_le.2 hfits ((le_counterOf_iff hne _).2 hlate)
      exact .inr (.inl ⟨(if_neg hne).trans (if_pos hearly), nofun, _, he, rfl⟩)
  | hmac => exact .inr (.inl ⟨rfl, nofun, _, rfl, rfl⟩)
  | trunc => exact .inr (.inl ⟨rfl, nofun, _, rfl, rfl⟩)
  | generate =>
    obtain ⟨hlong, he⟩ | ⟨hlen, hlimit, he⟩ | ⟨hlen, hfits, k, m, d, -, -, -, he⟩ := exec_generate_cases s
    · exact .inl ⟨_, if_pos hlong, he⟩
    · have hlate := (counterLimit_le_counterOf_thirty_iff _).1 hlimit
      exact .inl ⟨_, (if_neg (Nat.not_lt.2 hlen)).trans (if_neg (Nat.not_lt.2 hlate)), he⟩
    · have hearly := Nat.lt_of_not_le fun hlate =>
        Nat.not_le.2 hfits ((counterLimit_le_counterOf_thirty_iff _).2 hlate)
      exact .inr (.inl ⟨(if_neg (Nat.not_lt.2 hlen)).trans (if_pos hearly), nofun, _, he, rfl⟩)
  | remain =>
    obtain ⟨hzero, he⟩ | ⟨hne, he⟩ := exec_remain_cases s
    · exact .inl ⟨_, if_pos (congrArg BitVec.toNat hzero), he⟩
    · exact .inr (.inl ⟨if_neg (BitVec.toNat_ne.1 hne), nofun, _, he, rfl⟩)
  | wipe => exact .inr (.inr ⟨rfl, rfl, exec_wipe s⟩)

/-- Settles O50: an illegal word takes BAD_CMD, and a command ends as `exec_by_causes` says. -/
theorem commandsFaultExactlyOnTheirCauses : Obligations.CommandsFaultExactlyOnTheirCauses := by
  unfold Obligations.CommandsFaultExactlyOnTheirCauses
  refine ⟨fun s hillegal => ⟨_, complete_of_illegal hillegal⟩, fun i s => ?_⟩
  obtain ⟨c, hf, he⟩ | ⟨hf, hwipe, u, he, hu⟩ | ⟨hf, hwipe, he⟩ := exec_by_causes i s <;> rw [hf]
  · exact ⟨_, he⟩
  · refine ⟨_, he, fun h => absurd h hwipe, fun _ => ?_⟩
    rw [finish_status, hu, Status.completed]
  · exact ⟨_, he, fun _ => rfl, fun h => absurd hwipe h⟩

/-- Settles O52: the idle block's reads and writes, and of the words written to CMD the two cases of R63 with FAULT = 1. -/
theorem faultedBlockAnswersAndTakesOnlyWipe : Obligations.FaultedBlockAnswersAndTakesOnlyWipe := by
  unfold Obligations.FaultedBlockAnswersAndTakesOnlyWipe
  intro s w hidle hfault
  obtain ⟨hread, -⟩ := idleReadAnswersTheContents s hidle
  obtain ⟨-, hdiscard, haccept⟩ := commandAcceptance s w
  refine ⟨hread, fun r => (idleWriteStoresOrIsDiscarded s r w hidle).1, fun r hro => ?_, hdiscard hidle hfault, ?_⟩
  · obtain ⟨-, hdrop, -⟩ := idleWriteStoresOrIsDiscarded s r w hidle
    exact hdrop hro
  · rintro rfl
    exact haccept hidle (.inr rfl)

end Sys2Proof.Machine
end

section
/-! PROOFS. The results the host cannot write (spec/70_reset_and_hazards.md R226): no host transaction reaches KEY, KEYLEN,
REMAINING, BINARY, CODE or CODE_STR, and BAD_CMD writes STATUS alone. -/

namespace Sys2Proof.Machine

/-- `t` holds what `s` holds in every result register the host cannot write. -/
structure SameResults (s t : State) : Prop where
  key : t.key = s.key
  keyLen : t.keyLen = s.keyLen
  remaining : t.remaining = s.remaining
  binary : t.binary = s.binary
  code : t.code = s.code
  codeStr : t.codeStr = s.codeStr

theorem SameRegisters.sameResults {s t : State} (h : SameRegisters s t) : SameResults s t :=
  ⟨h.key, h.keyLen, (congrArg State.remaining h :), h.binary, h.code, h.codeStr⟩

theorem writeReg_remaining (r : Reg) (v : Word) (s : State) : (writeReg r v s).remaining = s.remaining := by
  by_cases hr : r = .cmd
  · subst hr
    rw [writeReg, acceptCommand_frame]
  · obtain ⟨-, -, -, hremaining, -⟩ := writeReg_frame r v s hr
    exact hremaining

/-- A result is read-only to the host (R47). -/
theorem writeReg_sameResults (r : Reg) (v : Word) (s : State) : SameResults s (writeReg r v s) := by
  obtain ⟨hlen, hkey, hbin, hcode, hstr⟩ := writeReg_results r v s
  exact ⟨hkey, hlen, writeReg_remaining r v s, hbin, hcode, hstr⟩

/-- A step keeps the results, is a completion step, or takes a reset turn. -/
theorem step_results_cases {s t : State} (h : step s = .next t) :
    SameResults s t ∨ (s.status.busy = true ∧ EngineHasTheTurn s) ∨ ∃ rest, s.schedule = .reset :: rest := by
  obtain hsame | ⟨hreset | ⟨hbusy, hturn, -⟩, -⟩ | ⟨r, v, rest, -, -, rfl⟩ | ⟨turns, rfl⟩ | ⟨-, -, hbusy, hturn, -⟩ :=
    step_register_cases h
  · exact .inl hsame.sameResults
  · exact .inr (.inr hreset)
  · exact .inr (.inl ⟨hbusy, hturn⟩)
  · obtain ⟨hkey, hlen, hremaining, hbin, hcode, hstr⟩ := writeReg_sameResults r v { s with schedule := rest }
    exact .inl ⟨hkey, hlen, hremaining, hbin, hcode, hstr⟩
  · exact .inl ⟨rfl, rfl, rfl, rfl, rfl, rfl⟩
  · exact .inr (.inl ⟨hbusy, hturn⟩)

/-- Settles O55: the three ways of `step_results_cases`. -/
theorem resultsChangeOnlyByCompletionOrReset : Obligations.ResultsChangeOnlyByCompletionOrReset := by
  unfold Obligations.ResultsChangeOnlyByCompletionOrReset
  intro s t h
  exact (step_results_cases h).imp_left fun ⟨hkey, hlen, hremaining, hbin, hcode, hstr⟩ =>
    ⟨hkey, hlen, hremaining, hbin, hcode, hstr⟩

end Sys2Proof.Machine
end

section
/-! PROOFS. A reset while a command is in flight (spec/70_reset_and_hazards.md R220). -/

namespace Sys2Proof.Machine

/-- An engine's turn of an idle block is taken without a change to any register (R10). -/
theorem step_of_idle_engine {s : State} {rest : List Turn} (hidle : s.status.busy = false)
    (hs : s.schedule = .engine :: rest) : step s = .next { s with schedule := rest } :=
  (step_of_turn hs).trans (engineTurn_of_idle (s := { s with schedule := rest }) hidle)

/-- Settles O48: the reset turn clears BUSY too, so the engine's turn after it finds an idle block. -/
theorem resetClearsEveryRegisterAndAbortsTheCommand : Obligations.ResetClearsEveryRegisterAndAbortsTheCommand := by
  unfold Obligations.ResetClearsEveryRegisterAndAbortsTheCommand
  intro s rest hs
  obtain ⟨hreset, -⟩ := resetAndWipeLeaveTheResetValues
  have hcleared := hreset s rest hs
  refine ⟨hcleared, fun rest' hengine => ?_⟩
  rw [run_succ hcleared, run_one]
  exact step_of_idle_engine rfl hengine

end Sys2Proof.Machine
end
